-- ==== Sys2Proof/Word.lean ====
section
/-! DEFINITION. The widths of the block's values (00_scope.md R6, R7, R8). Everything the spec slices or masks is a
bit vector of the width the spec states; everything the spec calls a mathematical integer is an `Int`. -/

namespace Sys2Proof

/-- A register-context value, PC, B or X: 24 bits, unsigned (R12; parameter `REGW` of R6). -/
abbrev Reg := BitVec 24

/-- One value of the memory map: 24 bits, unsigned (R18, R27; parameter `VALW` of R6). -/
abbrev MemVal := BitVec 24

/-- The opcode byte: the top byte of an instruction with its two low bits cleared (R46). -/
abbrev Opcode := BitVec 8

/-- The format-3 displacement field, 12 bits (R48). -/
abbrev Disp := BitVec 12

/-- The format-4 address field, 20 bits (R49). -/
abbrev AddrField := BitVec 20

/-- A bit read as the number 0 or 1, for the shift-and-or formulas of the spec. -/
def bitNat (b : Bool) : Nat := if b then 1 else 0

end Sys2Proof
end

