-- ==== Sys2Proof/Syntax.lean ====
section
/-! DEFINITION. The raw instruction, its Field Set, the nine decode cases, and `Instr`, the decoded instruction word: one
constructor for each row of spec/opcode_table.json (30_encoding.md R54). A constructor holds the bits its row leaves
open; the bits its row fixes are the constructor itself. -/

namespace Sys2Proof

/-- The format tag (R41). -/
inductive Format
  | f3
  | f4
  deriving DecidableEq, Repr

/-- A raw instruction with its format tag: 24 bits or 32 bits (R13, R62). -/
inductive RawWord
  | f3 (w : BitVec 24)
  | f4 (w : BitVec 32)
  deriving DecidableEq, Repr

/-- The field below the flag bits: the 12-bit displacement of format 3 or the 20-bit address of format 4 (R42, R43). -/
inductive DispField
  | disp (d : Disp)
  | addr (a : AddrField)
  deriving DecidableEq, Repr

/-- The Field Set (R66): what the extractor hands to the rest of the block. Its format is the constructor of `disp`. -/
structure FieldSet where
  opcode : Opcode
  n : Bool
  i : Bool
  x : Bool
  b : Bool
  p : Bool
  e : Bool
  disp : DispField
  deriving DecidableEq, Repr

/-- The two errors of the parser, which end a decode with no record (R106). -/
inductive ParseError
  /-- `UnsupportedLength` (alias `InvalidEncodingLength`, 90_conflicts.md C1), carrying the length `L` (R107). -/
  | unsupportedLength (length : Nat)
  /-- `InvalidHexInput` (alias `InvalidHexDigits`, C1), carrying nothing (R108). -/
  | invalidHexInput
  deriving DecidableEq, Repr

/-- The wire `case` (R24): one of the nine decode cases of R54. -/
inductive DecodeCase
  | f3Sic
  | f3SimplePc
  | f3SimpleBase
  | f3SimpleDirect
  | f3SimpleNorule
  | f3IndirectPc
  | f3IndirectNorule
  | f3Immediate
  | f4Addr
  deriving DecidableEq, Repr

/-- An instruction word, sorted into its decode case (R54). `opcode` is the opcode byte of R46. -/
inductive Instr
  /-- F3.SIC: `oooooo00xbpedddddddddddd` (R82). -/
  | f3Sic (opcode : Opcode) (x b p e : Bool) (d : Disp)
  /-- F3.SIMPLE.PC: `oooooo11x01edddddddddddd` (R83). -/
  | f3SimplePc (opcode : Opcode) (x e : Bool) (d : Disp)
  /-- F3.SIMPLE.BASE: `oooooo11x10edddddddddddd` (R84). -/
  | f3SimpleBase (opcode : Opcode) (x e : Bool) (d : Disp)
  /-- F3.SIMPLE.DIRECT: `oooooo11x00edddddddddddd` (R85). -/
  | f3SimpleDirect (opcode : Opcode) (x e : Bool) (d : Disp)
  /-- F3.SIMPLE.NORULE: `oooooo11x11edddddddddddd` (R86). -/
  | f3SimpleNorule (opcode : Opcode) (x e : Bool) (d : Disp)
  /-- F3.INDIRECT.PC: `oooooo10xb1edddddddddddd` (R87). -/
  | f3IndirectPc (opcode : Opcode) (x b e : Bool) (d : Disp)
  /-- F3.INDIRECT.NORULE: `oooooo10xb0edddddddddddd` (R88). -/
  | f3IndirectNorule (opcode : Opcode) (x b e : Bool) (d : Disp)
  /-- F3.IMMEDIATE: `oooooo01xbpedddddddddddd` (R89). -/
  | f3Immediate (opcode : Opcode) (x b p e : Bool) (d : Disp)
  /-- F4.ADDR: `oooooonixbpeaaaaaaaaaaaaaaaaaaaa` (R90). -/
  | f4Addr (opcode : Opcode) (n i x b p e : Bool) (a : AddrField)
  deriving DecidableEq, Repr

/-- The decode case an instruction belongs to. -/
def Instr.decodeCase : Instr → DecodeCase
  | .f3Sic .. => .f3Sic
  | .f3SimplePc .. => .f3SimplePc
  | .f3SimpleBase .. => .f3SimpleBase
  | .f3SimpleDirect .. => .f3SimpleDirect
  | .f3SimpleNorule .. => .f3SimpleNorule
  | .f3IndirectPc .. => .f3IndirectPc
  | .f3IndirectNorule .. => .f3IndirectNorule
  | .f3Immediate .. => .f3Immediate
  | .f4Addr .. => .f4Addr

/-- The opcode byte of an instruction. -/
def Instr.opcode : Instr → Opcode
  | .f3Sic op .. => op
  | .f3SimplePc op .. => op
  | .f3SimpleBase op .. => op
  | .f3SimpleDirect op .. => op
  | .f3SimpleNorule op .. => op
  | .f3IndirectPc op .. => op
  | .f3IndirectNorule op .. => op
  | .f3Immediate op .. => op
  | .f4Addr op .. => op

/-- The index bit of an instruction. -/
def Instr.x : Instr → Bool
  | .f3Sic _ x .. => x
  | .f3SimplePc _ x .. => x
  | .f3SimpleBase _ x .. => x
  | .f3SimpleDirect _ x .. => x
  | .f3SimpleNorule _ x .. => x
  | .f3IndirectPc _ x .. => x
  | .f3IndirectNorule _ x .. => x
  | .f3Immediate _ x .. => x
  | .f4Addr _ _ _ x .. => x

end Sys2Proof
end

