-- ==== Sys2Proof/WellFormed.lean ====
section
/-! DEFINITION. The one check an `Instr` can fail. Every other field has exactly the width of its row's pattern, so that
every value of it is encodable (30_encoding.md R55: no encoding is illegal). -/

namespace Sys2Proof

/-- An opcode byte is one of `0x00, 0x04, ..., 0xFC`: its two low bits are 0 (R46). -/
def opcodeWf (op : Opcode) : Bool := op &&& 0x03#8 == 0#8

/-- An instruction is well formed when its opcode byte is one (R46). -/
def Instr.wf (i : Instr) : Bool := opcodeWf i.opcode

end Sys2Proof
end

