-- ==== Sys2Proof/Decode.lean ====
section
/-! DEFINITION. The front end of the block (40_parse_extract.md, 30_encoding.md): hex parser, field extractor, select, and
their composition `decodeHex`, total on every string and rejecting by name; then the encoder, written from the bit
tables of R42, R43 and the rows of R54. -/

namespace Sys2Proof

/-! ### Hex parser (R59 to R62) -/

/-- A run of neighbouring digit characters, whose values rise by one from that of the first. -/
structure DigitRun where
  first : Char
  last : Char
  value : Nat
  deriving DecidableEq, Repr

/-- The 22 digit characters, in the three runs in which R61 and R62 list them: `A` and `a` are both 10. -/
def digitRuns : List DigitRun := [⟨'0', '9', 0⟩, ⟨'A', 'F', 10⟩, ⟨'a', 'f', 10⟩]

/-- The value that a run gives a character, `none` for a character outside the run. -/
def DigitRun.valueOf (r : DigitRun) (c : Char) : Option Nat :=
  if c.toNat < r.first.toNat ∨ r.last.toNat < c.toNat then none else some (r.value + c.toNat - r.first.toNat)

/-- `digitvalue` of R62: the value that one of the runs gives, `none` for a character in none of them (R61). -/
def digitValue (c : Char) : Option Nat := digitRuns.findSome? (·.valueOf c)

/-- The loop of R62: `acc` is what the characters before have made; `none` when a character is no digit. -/
def hexNumber : List Char → Nat → Option Nat
  | [], acc => some acc
  | c :: cs, acc =>
    match digitValue c with
    | none => none
    | some v => hexNumber cs (acc * 16 + v)

/-- `Parse` (R62): the length check first (R60), then the digit check (R61), then the conversion. -/
def parse (hex : String) : Except ParseError RawWord :=
  if hex.length = 6 ∨ hex.length = 8 then
    match hexNumber hex.toList 0 with
    | none => .error .invalidHexInput
    | some v => .ok (if hex.length = 6 then .f3 (BitVec.ofNat 24 v) else .f4 (BitVec.ofNat 32 v))
  else .error (.unsupportedLength hex.length)

/-! ### Raw instruction -/

/-- The format of a raw instruction (R41). -/
def RawWord.format : RawWord → Format
  | .f3 _ => .f3
  | .f4 _ => .f4

/-- A raw instruction as the unsigned integer it is. -/
def RawWord.toNat : RawWord → Nat
  | .f3 w => w.toNat
  | .f4 w => w.toNat

/-- `W`, the width of an instruction of a format (R24, R41). -/
def Format.width : Format → Nat
  | .f3 => 24
  | .f4 => 32

/-- How many hex digits write an instruction of a format (R41). -/
def Format.digits : Format → Nat
  | .f3 => 6
  | .f4 => 8

/-- The instruction an implementation with one 32-bit instruction bus reads from it: a format-3 word stands in bits 23:0
and bits 31:24 are ignored (R13; 92_eei_decisions.md D1). -/
def RawWord.ofBus (fmt : Format) (bus : BitVec 32) : RawWord :=
  match fmt with
  | .f3 => .f3 (bus.setWidth 24)
  | .f4 => .f4 bus

/-! ### Field extractor (R63 to R66) -/

/-- Format-3 extraction (R63). -/
def extract3 (w : BitVec 24) : FieldSet where
  opcode := (w >>> 16).setWidth 8 &&& 0xFC#8
  n := w.getLsbD 17
  i := w.getLsbD 16
  x := w.getLsbD 15
  b := w.getLsbD 14
  p := w.getLsbD 13
  e := w.getLsbD 12
  disp := .disp (w.extractLsb' 0 12)

/-- Format-4 extraction (R64). -/
def extract4 (w : BitVec 32) : FieldSet where
  opcode := (w >>> 24).setWidth 8 &&& 0xFC#8
  n := w.getLsbD 25
  i := w.getLsbD 24
  x := w.getLsbD 23
  b := w.getLsbD 22
  p := w.getLsbD 21
  e := w.getLsbD 20
  disp := .addr (w.extractLsb' 0 20)

/-- The Field Set of a raw instruction (R65: total). -/
def extract : RawWord → FieldSet
  | .f3 w => extract3 w
  | .f4 w => extract4 w

/-- The format a Field Set came from. -/
def FieldSet.format (f : FieldSet) : Format :=
  match f.disp with
  | .disp _ => .f3
  | .addr _ => .f4

/-! ### Decode cases (R54, R78) -/

/-- One row of the table of R54, with its mask and match as numbers. -/
structure CaseRow where
  case : DecodeCase
  format : Format
  mask : Nat
  match' : Nat
  deriving DecidableEq, Repr

/-- The table of R54. -/
def caseTable : List CaseRow :=
  [ ⟨.f3Sic, .f3, 0x030000, 0x000000⟩,
    ⟨.f3SimplePc, .f3, 0x036000, 0x032000⟩,
    ⟨.f3SimpleBase, .f3, 0x036000, 0x034000⟩,
    ⟨.f3SimpleDirect, .f3, 0x036000, 0x030000⟩,
    ⟨.f3SimpleNorule, .f3, 0x036000, 0x036000⟩,
    ⟨.f3IndirectPc, .f3, 0x032000, 0x022000⟩,
    ⟨.f3IndirectNorule, .f3, 0x032000, 0x020000⟩,
    ⟨.f3Immediate, .f3, 0x030000, 0x010000⟩,
    ⟨.f4Addr, .f4, 0x00000000, 0x00000000⟩ ]

/-- Whether a raw instruction is in a row: its format is the row's and `w & mask = match` (R54). -/
def CaseRow.matches (r : CaseRow) (w : RawWord) : Bool :=
  r.format == w.format && w.toNat &&& r.mask == r.match'

/-- The multiplexer select of R78, from the raw bits. -/
def select (fmt : Format) (n i b p : Bool) : DecodeCase :=
  match fmt, n, i with
  | .f4, _, _ => .f4Addr
  | .f3, false, false => .f3Sic
  | .f3, true, true =>
    match p, b with
    | true, false => .f3SimplePc
    | false, true => .f3SimpleBase
    | false, false => .f3SimpleDirect
    | true, true => .f3SimpleNorule
  | .f3, true, false => if p then .f3IndirectPc else .f3IndirectNorule
  | .f3, false, true => .f3Immediate

/-! ### Decoder -/

/-- A 24-bit word, sorted into its case (R78) with the fields of R63. -/
def decodeWord3 (w : BitVec 24) : Instr :=
  let f := extract3 w
  let d : Disp := w.extractLsb' 0 12
  match f.n, f.i with
  | false, false => .f3Sic f.opcode f.x f.b f.p f.e d
  | true, true =>
    match f.p, f.b with
    | true, false => .f3SimplePc f.opcode f.x f.e d
    | false, true => .f3SimpleBase f.opcode f.x f.e d
    | false, false => .f3SimpleDirect f.opcode f.x f.e d
    | true, true => .f3SimpleNorule f.opcode f.x f.e d
  | true, false =>
    if f.p then .f3IndirectPc f.opcode f.x f.b f.e d else .f3IndirectNorule f.opcode f.x f.b f.e d
  | false, true => .f3Immediate f.opcode f.x f.b f.p f.e d

/-- A 32-bit word: format 4 has one case (R52). -/
def decodeWord4 (w : BitVec 32) : Instr :=
  let f := extract4 w
  .f4Addr f.opcode f.n f.i f.x f.b f.p f.e (w.extractLsb' 0 20)

/-- The instruction a raw word is. It refuses none (R55). -/
def decodeRaw : RawWord → Instr
  | .f3 w => decodeWord3 w
  | .f4 w => decodeWord4 w

/-- The decoder on the block's own input, the hex string: an instruction or one of the parser's two errors. -/
def decodeHex (hex : String) : Except ParseError Instr :=
  match parse hex with
  | .error err => .error err
  | .ok w => .ok (decodeRaw w)

/-! ### Encoder -/

/-- The Field Set an instruction carries: the row's fixed bits are constants, the others are its operands (R54). -/
def Instr.fields : Instr → FieldSet
  | .f3Sic op x b p e d => ⟨op, false, false, x, b, p, e, .disp d⟩
  | .f3SimplePc op x e d => ⟨op, true, true, x, false, true, e, .disp d⟩
  | .f3SimpleBase op x e d => ⟨op, true, true, x, true, false, e, .disp d⟩
  | .f3SimpleDirect op x e d => ⟨op, true, true, x, false, false, e, .disp d⟩
  | .f3SimpleNorule op x e d => ⟨op, true, true, x, true, true, e, .disp d⟩
  | .f3IndirectPc op x b e d => ⟨op, true, false, x, b, true, e, .disp d⟩
  | .f3IndirectNorule op x b e d => ⟨op, true, false, x, b, false, e, .disp d⟩
  | .f3Immediate op x b p e d => ⟨op, false, true, x, b, p, e, .disp d⟩
  | .f4Addr op n i x b p e a => ⟨op, n, i, x, b, p, e, .addr a⟩

/-- A word of width `w` with only bit `k`, which is `f`. -/
def flagBit (w k : Nat) (f : Bool) : BitVec w := (BitVec.ofBool f).setWidth w <<< k

/-- The format-3 word of its fields, each at its place in the table of R42. -/
def pack3 (op : Opcode) (n i x b p e : Bool) (d : Disp) : BitVec 24 :=
  ((op &&& 0xFC#8).setWidth 24 <<< 16) ||| flagBit 24 17 n ||| flagBit 24 16 i ||| flagBit 24 15 x |||
    flagBit 24 14 b ||| flagBit 24 13 p ||| flagBit 24 12 e ||| d.setWidth 24

/-- The format-4 word of its fields, each at its place in the table of R43. -/
def pack4 (op : Opcode) (n i x b p e : Bool) (a : AddrField) : BitVec 32 :=
  ((op &&& 0xFC#8).setWidth 32 <<< 24) ||| flagBit 32 25 n ||| flagBit 32 24 i ||| flagBit 32 23 x |||
    flagBit 32 22 b ||| flagBit 32 21 p ||| flagBit 32 20 e ||| a.setWidth 32

/-- The raw instruction of a Field Set: `{opcode[7:2], n, i, x, b, p, e, disp_raw}` (R65). -/
def FieldSet.word (f : FieldSet) : RawWord :=
  match f.disp with
  | .disp d => .f3 (pack3 f.opcode f.n f.i f.x f.b f.p f.e d)
  | .addr a => .f4 (pack4 f.opcode f.n f.i f.x f.b f.p f.e a)

/-- The raw instruction of a well-formed `Instr`. -/
def encode (i : Instr) : RawWord := i.fields.word

/-! ### Writing a word as hex digits -/

/-- The low `k` hex digits of `v`, most significant first (R45). -/
def nibbles : Nat → Nat → List Nat
  | 0, _ => []
  | k + 1, v => v / 16 ^ k % 16 :: nibbles k v

/-- The upper-case character of a hex digit (R102; 92_eei_decisions.md D11). -/
def hexChar (v : Nat) : Char := if v < 10 then Char.ofNat ('0'.toNat + v) else Char.ofNat ('A'.toNat + (v - 10))

/-- `v` as exactly `k` upper-case hex digits. -/
def renderHex (k v : Nat) : String := String.ofList ((nibbles k v).map hexChar)

/-- The hex string that presents a raw instruction to the block. -/
def RawWord.hex (w : RawWord) : String := renderHex w.format.digits w.toNat

/-- How many hex digits write a word to which the opcode table gives `nbits` bits: 6 up to 24 bits, 8 up to 32, and for
more bits more digits, which the parser refuses (log entry 16). -/
def tableDigits (nbits : Nat) : Nat :=
  if nbits ≤ 24 then 6 else if nbits ≤ 32 then 8 else (nbits + 3) / 4

/-- The hex string of a word as the opcode table numbers its bits (bit 0 is the least significant bit of the 24-bit or
32-bit instruction; R7, R32). The bits above `nbits` are 0. -/
def tableHex (nbits w : Nat) : String := renderHex (tableDigits nbits) (w % 2 ^ nbits)

/-- What the decoder reads from an instruction whose bits are `w`. -/
def decodeTableWord (nbits w : Nat) : Option Instr :=
  match decodeHex (tableHex nbits w) with
  | .error _ => none
  | .ok i => some i

end Sys2Proof
end

