-- ==== Sys2Proof/Config.lean ====
section
/-! DEFINITION. The constants of the block (00_scope.md R6, 10_state.md R15). The parameters the spec leaves OPEN or
keeps for the model to set (`OPTAB`, `MEMMAP`, `F4_INDEX`) are no constants: they stand in `State`, so that a claim
over every state holds for every choice of them. -/

namespace Sys2Proof.Config

/-- `DEF_PC` (R15). -/
def defPc : Reg := 0x003000#24

/-- `DEF_B` (R15). -/
def defB : Reg := 0x006000#24

/-- `DEF_X` (R15). -/
def defX : Reg := 0x000090#24

/-- The mnemonic of an opcode that is no key of `OPTAB` (R17, R69). -/
def unknownMnemonic : String := "UNKNOWN"

/-- The decided value of `F4_INDEX` (R6; 92_eei_decisions.md D4; log entry 6). -/
def f4IndexDecided : Bool := false

/-- `TAW`: the two's-complement width that holds every target (R93; 92_eei_decisions.md D3). No value of the model is
cut to it: targets are integers. -/
def targetBusWidth : Nat := 27

end Sys2Proof.Config
end

