-- ==== Sys2Proof/Machine/State.lean ====
section
/-! DEFINITION. The output record, the outcomes and the state of the block (10_state.md). The block keeps nothing between
decodes (R23): what `State` holds is its input ports, the parameters the host configures, and its output port. -/

namespace Sys2Proof.Machine

/-- The addressing class, a wire (R24, R71). -/
inductive AddrClass
  | sic
  | simple
  | indirect
  | immediate
  deriving DecidableEq, Repr

/-- The record's `status` (R20; 92_eei_decisions.md D8). -/
inductive Status
  | computed
  | ambiguousAddressingMode
  deriving DecidableEq, Repr

/-- The record's `machine_class` (R77). -/
inductive MachineClass
  | sic
  | sicXe
  deriving DecidableEq, Repr

/-- The Decoded Instruction record, field by field the table of R20. -/
structure Record where
  format : Format
  raw : RawWord
  rawBin : String
  opcode : Opcode
  mnemonic : String
  nixbpe : String
  dispRaw : DispField
  dispSigned : Int
  modeLabel : String
  target : Option Int
  status : Status
  value : Option MemVal
  machineClass : MachineClass
  deriving DecidableEq, Repr

/-- What one decode answers: a record, or one of the parser's two errors and no record (R20, R106). -/
inductive Result
  | record (r : Record)
  | error (err : ParseError)
  deriving DecidableEq, Repr

/-- `OPTAB` as plain data: pairs of opcode byte and mnemonic (R17). The canonical form is `OpTab.wf` of Ops.lean. -/
abbrev OpTab := List (Opcode × String)

/-- `MEMMAP` as plain data: pairs of integer address and whole 24-bit value (R18, R26, R27). An address that is not
listed is no key and reads as `none` (R29). The canonical form is `Memory.wf` of Ops.lean. -/
abbrev Memory := List (Int × MemVal)

/-- The block at one moment. -/
structure State where
  /-- Input port `hex`; `none` while the host presents no request (R13; log entries 1, 2). -/
  hex : Option String
  /-- Input port `pc_ovr` (R13). -/
  pcOvr : Option Reg
  /-- Input port `b_ovr` (R13). -/
  bOvr : Option Reg
  /-- Input port `x_ovr` (R13). -/
  xOvr : Option Reg
  /-- Static table `OPTAB`, a parameter (R6, R17). -/
  optab : OpTab
  /-- Static table `MEMMAP`, a parameter (R6, R18). -/
  memmap : Memory
  /-- Parameter `F4_INDEX` (R6; 90_conflicts.md C4; log entry 6). -/
  f4Index : Bool
  /-- Output port: the result of the last decode, held until the next step (log entry 24); `none` when the outputs have no
  value (R20, R23; log entry 2). -/
  output : Option Result
  deriving DecidableEq, Repr

/-- Faults of the block: none. Nothing raises one: every decode ends in a result (R106, R124), and the two parser errors
are results on the output port after which the next request is decoded (R113, R114; log entry 3). -/
inductive Fault
  deriving DecidableEq, Repr

/-- Refusals of the model. -/
inductive Refusal
  /-- Raised by `exec`'s arm of an instruction that has no meaning yet; no arm raises it. Safe. -/
  | notModelled (mnemonic : String)
  deriving DecidableEq, Repr

/-- What a step answers. -/
abbrev Outcome := Host.Outcome State Fault Refusal

/-- The block before the first request (R23, R120): no request and no override is presented, so that PC, B and X read as
their defaults (R16); the outputs have no value; both tables are empty, which R122 allows (log entry 5); `F4_INDEX`
has its decided value. -/
def State.reset : State where
  hex := none
  pcOvr := none
  bOvr := none
  xOvr := none
  optab := []
  memmap := []
  f4Index := Config.f4IndexDecided
  output := none

end Sys2Proof.Machine
end

