-- ==== Sys2Proof/Machine/Ops.lean ====
section
/-! DEFINITION. The named operations over the register context, the two tables and the output port. -/

namespace Sys2Proof.Machine

/-! ### Register context (R16): the only place where the defaults are read -/

/-- `reg.pc` (R16). -/
def State.regPc (s : State) : Reg := s.pcOvr.getD Config.defPc

/-- `reg.b` (R16). -/
def State.regB (s : State) : Reg := s.bOvr.getD Config.defB

/-- `reg.x` (R16). -/
def State.regX (s : State) : Reg := s.xOvr.getD Config.defX

/-! ### Tables: finite partial maps with unique keys (R17, R27) -/

/-- Partial-map lookup, `none` when `k` is not a key (R9). -/
def tableGet {κ ν : Type} [DecidableEq κ] : List (κ × ν) → κ → Option ν
  | [], _ => none
  | (k', v) :: t, k => if k' = k then some v else tableGet t k

/-- The table with `k` mapped to `v`, its keys kept in rising order of `rank`. -/
def tableDefine {κ ν : Type} (rank : κ → Int) : List (κ × ν) → κ → ν → List (κ × ν)
  | [], k, v => [(k, v)]
  | (k', v') :: t, k, v =>
    if rank k < rank k' then (k, v) :: (k', v') :: t
    else if rank k = rank k' then (k, v) :: t
    else (k', v') :: tableDefine rank t k v

/-- Canonical form: keys strictly rising. -/
def tableSorted {κ ν : Type} (rank : κ → Int) : List (κ × ν) → Bool
  | [] => true
  | (k, _) :: t => t.all (fun q => decide (rank k < rank q.1)) && tableSorted rank t

/-- The order of memory-map keys: they are integers (R25, R27). -/
def Memory.rank (a : Int) : Int := a

/-- The order of opcode-table keys. -/
def OpTab.rank (op : Opcode) : Int := (op.toNat : Int)

/-- The memory map is in canonical form: addresses strictly rising, so that keys are unique and equal maps are equal
lists (R18, R27). No entry can equal what an unlisted address reads as, since that is `none` (R29). -/
def Memory.wf (m : Memory) : Bool := tableSorted Memory.rank m

/-- The opcode table is in canonical form, and its keys are opcode bytes (R17, R46). -/
def OpTab.wf (t : OpTab) : Bool :=
  tableSorted OpTab.rank t && t.all (fun q => q.1 &&& 0x03#8 == 0#8)

/-- `MemRead(addr, 24)` (R29): one whole value or `none`; no side effect, no failure, any integer address. -/
def memRead (m : Memory) (addr : Int) : Option MemVal := tableGet m addr

/-- The pointer read (R30, R31, R87): an absent key gives the value 0. -/
def pointerRead (m : Memory) (ptr : Int) : MemVal := (memRead m ptr).getD 0#24

/-- The value read (R97, R98): `none` when there is no target, else the map at the final target; an absent key stays
`none`. -/
def valueRead (m : Memory) (target : Option Int) : Option MemVal :=
  match target with
  | none => none
  | some t => memRead m t

/-- The opcode resolver (R69). -/
def resolve (t : OpTab) (op : Opcode) : String := (tableGet t op).getD Config.unknownMnemonic

/-! ### What the host does between decodes (R22) -/

/-- The host adds an entry to a memory map it will supply (R6, R22). The block itself never writes the map (R28). -/
def Memory.define (m : Memory) (addr : Int) (v : MemVal) : Memory := tableDefine Memory.rank m addr v

/-- The host adds an entry to an opcode table it will supply. -/
def OpTab.define (t : OpTab) (op : Opcode) (name : String) : OpTab := tableDefine OpTab.rank t op name

/-- The host supplies both tables, whole, and the parameter `F4_INDEX` (R6, R22, R123). An earlier result stays on the
output port until the next step (DESIGN CHOICE, log entry 24). -/
def State.configure (s : State) (optab : OpTab) (memmap : Memory) (f4Index : Bool) : State :=
  { s with optab := optab, memmap := memmap, f4Index := f4Index }

/-- The host presents a hex string with the overrides as they stand. An earlier result stays on the output port until the
next step (DESIGN CHOICE, log entry 24). -/
def State.presentHex (s : State) (hex : String) : State := { s with hex := some hex }

/-- The host presents a whole request: all four inputs belong together, and an override that is omitted is absent (R13,
R16, R127). The spec promises no holding of outputs between requests (92_eei_decisions.md D9); here an earlier result
stays on the output port until the next step decodes the new request (DESIGN CHOICE, log entry 24). -/
def State.present (s : State) (hex : String) (pcOvr bOvr xOvr : Option Reg) : State :=
  { s with hex := some hex, pcOvr := pcOvr, bOvr := bOvr, xOvr := xOvr }

/-! ### The output port -/

/-- The state with its output port at `o`: the one thing a decode changes (R3, R11). -/
def State.setOutput (s : State) (o : Option Result) : State := { s with output := o }

/-- Raising a parser error (R9, R107, R108, R113): the error is the whole result, nothing is saved, no mode changes and
no handler is entered. The machine goes on with the next request, so there is no return from it (R114). -/
def raiseError (err : ParseError) (s : State) : Outcome := .next (s.setOutput (some (.error err)))

/-- No request is presented: no decode takes place and the outputs have no value (R23; log entry 2). -/
def idle (s : State) : Outcome := .next (s.setOutput none)

end Sys2Proof.Machine
end

