-- ==== Sys2Proof/Machine/Operands.lean ====
section
/-! DEFINITION. Displacement signing (40_parse_extract.md R67, R68), every operand form of the address-arithmetic unit
(42_target_address.md R82 to R90) and the index adder (R92). Sums are exact integers (R8, R91): nothing wraps. -/

namespace Sys2Proof.Machine

/-- `sext_12` (R67): the signed value of a format-3 displacement. -/
def signedDisp (d : Disp) : Int :=
  if d &&& 0x800#12 = 0#12 then (d.toNat : Int) else (d.toNat : Int) - 0x1000

/-- The record's `disp_signed`: signed in format 3 (R67), the unsigned field in format 4 (R68). -/
def dispSigned : DispField → Int
  | .disp d => signedDisp d
  | .addr a => (a.toNat : Int)

/-- F3.SIC (R82): `((b << 14) | (p << 13) | (e << 12) | disp) & 0x7FFF`, the displacement unsigned. -/
def sicAddress (b p e : Bool) (d : Disp) : Int :=
  ((((bitNat b <<< 14) ||| (bitNat p <<< 13) ||| (bitNat e <<< 12) ||| d.toNat) &&& 0x7FFF : Nat) : Int)

/-- F3.SIMPLE.PC (R83): the caller's PC plus the signed displacement. -/
def pcRelative (s : State) (d : Disp) : Int := (s.regPc.toNat : Int) + signedDisp d

/-- F3.SIMPLE.BASE (R84): B plus the signed displacement. -/
def baseRelative (s : State) (d : Disp) : Int := (s.regB.toNat : Int) + signedDisp d

/-- F3.SIMPLE.DIRECT (R85): the displacement, unsigned. -/
def directAddress (d : Disp) : Int := (d.toNat : Int)

/-- The wire `ptr` (R24, R87). -/
def indirectPointer (s : State) (d : Disp) : Int := (s.regPc.toNat : Int) + signedDisp d

/-- F3.INDIRECT.PC (R87): the value at the pointer, 0 when the pointer is no key; one level only. -/
def indirectTarget (s : State) (d : Disp) : Int := ((pointerRead s.memmap (indirectPointer s d)).toNat : Int)

/-- F3.IMMEDIATE (R89): the signed displacement when it is not negative, else the raw one. -/
def immediateOperand (d : Disp) : Int := if signedDisp d ≥ 0 then signedDisp d else (d.toNat : Int)

/-- F4.ADDR (R90): the 20-bit field. -/
def extendedAddress (a : AddrField) : Int := (a.toNat : Int)

/-- Whether the index adder adds `reg.x` (R92): in format 3 when x = 1, in format 4 only when also `F4_INDEX` is set
(R90). -/
def indexes (s : State) (fmt : Format) (x : Bool) : Bool :=
  match fmt with
  | .f3 => x
  | .f4 => x && s.f4Index

/-- The index adder (R92), from `ta_base` to `target`: after the mode formula, nothing where there is no target. -/
def indexTarget (s : State) (fmt : Format) (x : Bool) (taBase : Option Int) : Option Int :=
  match taBase with
  | none => none
  | some t => if indexes s fmt x then some (t + (s.regX.toNat : Int)) else some t

end Sys2Proof.Machine
end

