-- ==== Sys2Proof/Machine/Flags.lean ====
section
/-! DEFINITION. The six flag bits of an instruction and what is read from them alone: the string `nixbpe` (R47, R66), the
class (R71), the label (R73 to R76), the machine class (R77). The block has no condition flags (R21): these bits are
part of the instruction, not of the state. -/

namespace Sys2Proof.Machine

/-- A bit as a character (R47). -/
def bitChar (b : Bool) : Char := if b then '1' else '0'

/-- The six bits in the order n, i, x, b, p, e (R47). -/
def nixbpe (f : FieldSet) : String :=
  String.ofList [bitChar f.n, bitChar f.i, bitChar f.x, bitChar f.b, bitChar f.p, bitChar f.e]

/-- The class of (n, i) (R71). -/
def addrClass (n i : Bool) : AddrClass :=
  match n, i with
  | false, false => .sic
  | true, true => .simple
  | true, false => .indirect
  | false, true => .immediate

/-- The class strings of R71. -/
def AddrClass.text : AddrClass → String
  | .sic => "SIC format"
  | .simple => "Simple addressing"
  | .indirect => "Indirect addressing"
  | .immediate => "Immediate addressing"

/-- A suffix of the label, present when its bit is set. -/
def suffixIf (b : Bool) (text : String) : String := if b then text else ""

/-- The suffixes that depend on the format: `Extended` in format 4 (R73), `PC-relative` then `Base-relative` in format 3
(R74). -/
def formatSuffix (f : FieldSet) : String :=
  match f.format with
  | .f4 => suffixIf f.e ", Extended"
  | .f3 => suffixIf f.p ", PC-relative" ++ suffixIf f.b ", Base-relative"

/-- `mode_label` (R76): class string, format suffixes, and last `Indexed` in either format (R75). -/
def modeLabel (f : FieldSet) : String :=
  (addrClass f.n f.i).text ++ formatSuffix f ++ suffixIf f.x ", Indexed"

/-- `machine_class` (R77; 92_eei_decisions.md D5). -/
def machineClass (f : FieldSet) : MachineClass :=
  match f.format, f.n, f.i with
  | .f3, false, false => .sic
  | _, _, _ => .sicXe

/-- The string a machine class is reported as (R77). -/
def MachineClass.text : MachineClass → String
  | .sic => "SIC"
  | .sicXe => "SIC/XE"

end Sys2Proof.Machine
end

