-- ==== Sys2Proof/Machine/Render.lean ====
section
/-! DEFINITION. Rendering (43_lookup_output.md R101, R102) and the order of the report (R103). -/

namespace Sys2Proof.Machine

/-- One hex digit in binary, four characters, most significant first. -/
def renderNibble (v : Nat) : String :=
  String.ofList [bitChar (v.testBit 3), bitChar (v.testBit 2), bitChar (v.testBit 1), bitChar (v.testBit 0)]

/-- `v` in binary, `k` groups of four bits from the most significant end, one space between groups and none at the ends
(R101; 92_eei_decisions.md D11). -/
def renderBin (k v : Nat) : String := " ".intercalate ((nibbles k v).map renderNibble)

/-- `raw_bin` (R101): 6 groups for format 3, 8 for format 4. -/
def rawBin (w : RawWord) : String := renderBin w.format.digits w.toNat

/-- A displacement or address field as the unsigned integer it is. -/
def dispNat : DispField → Nat
  | .disp d => d.toNat
  | .addr a => a.toNat

/-- How many hex digits, or groups of four bits, write a field: 3 for a displacement, 5 for an address (R102). -/
def dispDigits : DispField → Nat
  | .disp _ => 3
  | .addr _ => 5

/-- The field in binary (R102). -/
def Record.dispBin (r : Record) : String := renderBin (dispDigits r.dispRaw) (dispNat r.dispRaw)

/-- The field in hex (R102). -/
def Record.dispHex (r : Record) : String := renderHex (dispDigits r.dispRaw) (dispNat r.dispRaw)

/-- The raw instruction in hex (R102). -/
def Record.rawHex (r : Record) : String := r.raw.hex

/-- The code `err` of an outcome (R106; 92_eei_decisions.md D10): a view of the result, stored nowhere. -/
def Result.err : Result → BitVec 2
  | .record r =>
    match r.status with
    | .computed => 0#2
    | .ambiguousAddressingMode => 3#2
  | .error (.unsupportedLength _) => 1#2
  | .error .invalidHexInput => 2#2

/-- A line of the report, with what the spec fixes of it. Number bases and captions are not fixed, and the trace line has
a place but no content (R104). -/
inductive ReportLine
  | binary (text : String)
  | opcode (op : Opcode)
  | nixbpe (text : String)
  | field (bin hex : String)
  | targetAddress (target : Option Int)
  | computationTrace
  | memoryValue (v : MemVal)
  | addressingMode (text : String)
  | format (f : Format)
  | machineClass (text : String)
  | mnemonic (text : String)
  deriving DecidableEq, Repr

/-- The lines of the report in the order of R103. Printing them is the host's. -/
def Record.report (r : Record) : List ReportLine :=
  [.binary r.rawBin, .opcode r.opcode, .nixbpe r.nixbpe, .field r.dispBin r.dispHex, .targetAddress r.target,
    .computationTrace] ++
  (match r.value with
    | some v => [.memoryValue v]
    | none => []) ++
  [.addressingMode r.modeLabel, .format r.format, .machineClass r.machineClass.text, .mnemonic r.mnemonic]

end Sys2Proof.Machine
end

