-- ==== Sys2Proof/Machine/Assemble.lean ====
section
/-! DEFINITION. The back end that every meaning shares: index adder, status, value lookup and record assembly, the last
lines of R99. A meaning supplies its Field Set and its `ta_base`. -/

namespace Sys2Proof.Machine

/-- `status` (R20, R109): `AmbiguousAddressingMode` exactly when there is no target. -/
def statusOf (target : Option Int) : Status :=
  match target with
  | some _ => .computed
  | none => .ambiguousAddressingMode

/-- The record of one decode (R99): every field is there, whatever the case; only `target` and `value` can be absent. -/
def assemble (f : FieldSet) (taBase : Option Int) (s : State) : Record :=
  let target := indexTarget s f.format f.x taBase
  { format := f.format
    raw := f.word
    rawBin := rawBin f.word
    opcode := f.opcode
    mnemonic := resolve s.optab f.opcode
    nixbpe := nixbpe f
    dispRaw := f.disp
    dispSigned := dispSigned f.disp
    modeLabel := modeLabel f
    target := target
    status := statusOf target
    value := valueRead s.memmap target
    machineClass := machineClass f }

/-- The end of a decode that got past the parser: its record stands on the output port and nothing else changes (R3,
R11, R109). -/
def finish (f : FieldSet) (taBase : Option Int) (s : State) : Outcome :=
  .next (s.setOutput (some (.record (assemble f taBase s))))

end Sys2Proof.Machine
end

