-- ==== Sys2Proof/Machine/Format3.lean ====
section
/-! DEFINITION. The meanings of the eight format-3 cases (42_target_address.md R82 to R89). Each gives its `ta_base`. -/

namespace Sys2Proof.Machine

/-- F3.SIC (R82). -/
def execF3Sic (op : Opcode) (x b p e : Bool) (d : Disp) (s : State) : Outcome :=
  finish (Instr.f3Sic op x b p e d).fields (some (sicAddress b p e d)) s

/-- F3.SIMPLE.PC (R83). -/
def execF3SimplePc (op : Opcode) (x e : Bool) (d : Disp) (s : State) : Outcome :=
  finish (Instr.f3SimplePc op x e d).fields (some (pcRelative s d)) s

/-- F3.SIMPLE.BASE (R84). -/
def execF3SimpleBase (op : Opcode) (x e : Bool) (d : Disp) (s : State) : Outcome :=
  finish (Instr.f3SimpleBase op x e d).fields (some (baseRelative s d)) s

/-- F3.SIMPLE.DIRECT (R85). -/
def execF3SimpleDirect (op : Opcode) (x e : Bool) (d : Disp) (s : State) : Outcome :=
  finish (Instr.f3SimpleDirect op x e d).fields (some (directAddress d)) s

/-- F3.SIMPLE.NORULE (R86): no target, no value, everything else of the record. -/
def execF3SimpleNorule (op : Opcode) (x e : Bool) (d : Disp) (s : State) : Outcome :=
  finish (Instr.f3SimpleNorule op x e d).fields none s

/-- F3.INDIRECT.PC (R87): b is not consulted. -/
def execF3IndirectPc (op : Opcode) (x b e : Bool) (d : Disp) (s : State) : Outcome :=
  finish (Instr.f3IndirectPc op x b e d).fields (some (indirectTarget s d)) s

/-- F3.INDIRECT.NORULE (R88): as R86. -/
def execF3IndirectNorule (op : Opcode) (x b e : Bool) (d : Disp) (s : State) : Outcome :=
  finish (Instr.f3IndirectNorule op x b e d).fields none s

/-- F3.IMMEDIATE (R89): b and p are not consulted. -/
def execF3Immediate (op : Opcode) (x b p e : Bool) (d : Disp) (s : State) : Outcome :=
  finish (Instr.f3Immediate op x b p e d).fields (some (immediateOperand d)) s

end Sys2Proof.Machine
end

