-- ==== Sys2Proof/Machine/Format4.lean ====
section
/-! DEFINITION. The meaning of the one format-4 case (42_target_address.md R90). -/

namespace Sys2Proof.Machine

/-- F4.ADDR (R90): the address field whatever n, i, b, p and e are. x adds `reg.x` only when `F4_INDEX` is set. -/
def execF4Addr (op : Opcode) (n i x b p e : Bool) (a : AddrField) (s : State) : Outcome :=
  finish (Instr.f4Addr op n i x b p e a).fields (some (extendedAddress a)) s

end Sys2Proof.Machine
end

