-- ==== Sys2Proof/Machine/Dispatch.lean ====
section
/-! DEFINITION. One arm per constructor of `Instr`, each a direct call of its meaning. -/

namespace Sys2Proof.Machine

def exec (i : Instr) (s : State) : Host.Outcome State Fault Refusal :=
  match i with
  | .f3Sic op x b p e d => Sys2Proof.Machine.execF3Sic op x b p e d s
  | .f3SimplePc op x e d => Sys2Proof.Machine.execF3SimplePc op x e d s
  | .f3SimpleBase op x e d => Sys2Proof.Machine.execF3SimpleBase op x e d s
  | .f3SimpleDirect op x e d => Sys2Proof.Machine.execF3SimpleDirect op x e d s
  | .f3SimpleNorule op x e d => Sys2Proof.Machine.execF3SimpleNorule op x e d s
  | .f3IndirectPc op x b e d => Sys2Proof.Machine.execF3IndirectPc op x b e d s
  | .f3IndirectNorule op x b e d => Sys2Proof.Machine.execF3IndirectNorule op x b e d s
  | .f3Immediate op x b p e d => Sys2Proof.Machine.execF3Immediate op x b p e d s
  | .f4Addr op n im x b p e a => Sys2Proof.Machine.execF4Addr op n im x b p e a s

end Sys2Proof.Machine
end

