-- ==== Sys2Proof/Machine/Step.lean ====
section
/-! DEFINITION. One step is one decode of the request on the input ports (00_scope.md R3, 43_lookup_output.md R99). -/

namespace Sys2Proof.Machine

/-- One step: no request, no decode; a request that does not parse, its error; else the meaning of the decoded
instruction. The request stays on the ports until the host changes it (R127; log entry 4). -/
def step (s : State) : Host.Outcome State Fault Refusal :=
  match s.hex with
  | none => idle s
  | some h =>
    match decodeHex h with
    | .error err => raiseError err s
    | .ok i => exec i s

/-- The instruction is not fetched: it arrives at the `hex` port (R25). This places it there, with the overrides, tables
and output as they stand (log entries 15, 16). -/
def State.withFetchWord (s : State) (nbits w : Nat) : State := s.presentHex (tableHex nbits w)

end Sys2Proof.Machine
end

