-- ==== Sys2Proof/Machine/Batch.lean ====
section
/-! DEFINITION. A batch: the host presents requests one after another and takes each result (10_state.md R22,
70_reset_and_hazards.md R124). The block has no notion of it; claims about the independence of decodes are stated
over it. -/

namespace Sys2Proof.Machine

/-- The inputs of one decode (R13). -/
structure Request where
  hex : String
  pcOvr : Option Reg
  bOvr : Option Reg
  xOvr : Option Reg
  deriving DecidableEq, Repr

/-- The host presents a request. -/
def Request.on (r : Request) (s : State) : State := s.present r.hex r.pcOvr r.bOvr r.xOvr

/-- The results of a batch, in order, each decode starting from the state the one before left. It would end early at a
fault or a refusal. -/
def runBatch : State → List Request → List (Option Result)
  | _, [] => []
  | s, r :: rs =>
    match step (r.on s) with
    | .next t => t.output :: runBatch t rs
    | .fault _ => []
    | .refused _ => []

end Sys2Proof.Machine
end

