-- ==== Sys2Proof/Machine/Composition.lean ====
section
/-! DEFINITION. The composition of 43_lookup_output.md R99, written a second time from the pseudocode of the spec, on the
raw instruction as an integer: shifts and masks for the fields (R44, R46), the nested conditions of R78, one formula per
case. Its parser, `rawBin`, `nixbpe` and `modeLabel` are the machine's. `step` is claimed to compute it; nothing of the
machine calls it. -/

namespace Sys2Proof.Machine

/-- The field `v[k]` of R7. -/
def natBit (v k : Nat) : Bool := v / 2 ^ k % 2 == 1

/-- Extraction for both formats at once, aligned at the top (R44, R46). -/
def composedFields (w : RawWord) : FieldSet :=
  let instr := w.toNat
  let width := w.format.width
  { opcode := BitVec.ofNat 8 ((instr >>> (width - 8)) &&& 0xFC)
    n := natBit instr (width - 7)
    i := natBit instr (width - 8)
    x := natBit instr (width - 9)
    b := natBit instr (width - 10)
    p := natBit instr (width - 11)
    e := natBit instr (width - 12)
    disp :=
      match w.format with
      | .f3 => .disp (BitVec.ofNat 12 (instr % 2 ^ 12))
      | .f4 => .addr (BitVec.ofNat 20 (instr % 2 ^ 20)) }

/-- `select` as the nested conditions of R78. -/
def composedSelect (fmt : Format) (n i b p : Bool) : DecodeCase :=
  if fmt = .f4 then .f4Addr
  else if n = false ∧ i = false then .f3Sic
  else if n = true ∧ i = true then
    if p = true ∧ b = false then .f3SimplePc
    else if p = false ∧ b = true then .f3SimpleBase
    else if p = false ∧ b = false then .f3SimpleDirect
    else .f3SimpleNorule
  else if n = true ∧ i = false then
    if p = true then .f3IndirectPc else .f3IndirectNorule
  else .f3Immediate

/-- `formula` (R82 to R90), from the two readings of the displacement: `raw` and `signed`. -/
def composedFormula (c : DecodeCase) (f : FieldSet) (raw : Nat) (signed : Int) (pc b : Nat) (m : Memory) : Option Int :=
  match c with
  | .f3Sic =>
    some ((((bitNat f.b * 2 ^ 14) ||| (bitNat f.p * 2 ^ 13) ||| (bitNat f.e * 2 ^ 12) ||| raw) % 2 ^ 15 : Nat) : Int)
  | .f3SimplePc => some ((pc : Int) + signed)
  | .f3SimpleBase => some ((b : Int) + signed)
  | .f3SimpleDirect => some (raw : Int)
  | .f3SimpleNorule => none
  | .f3IndirectPc =>
    match memRead m ((pc : Int) + signed) with
    | some v => some (v.toNat : Int)
    | none => some 0
  | .f3IndirectNorule => none
  | .f3Immediate => some (raw : Int)
  | .f4Addr => some (raw : Int)

/-- `signing` (R67, R68) on the raw field. -/
def composedSigning (fmt : Format) (raw : Nat) : Int :=
  match fmt with
  | .f3 => if raw ≥ 0x800 then (raw : Int) - 0x1000 else (raw : Int)
  | .f4 => (raw : Int)

/-- `Decode(hex, pc_ovr, b_ovr, x_ovr; OPTAB, MEMMAP)` of R99, with the parameter `F4_INDEX`. -/
def composedDecode (hex : String) (pcOvr bOvr xOvr : Option Reg) (optab : OpTab) (memmap : Memory) (f4Index : Bool) :
    Result :=
  match parse hex with
  | .error err => .error err
  | .ok w =>
    let pc := (pcOvr.getD 0x003000#24).toNat
    let b := (bOvr.getD 0x006000#24).toNat
    let x := (xOvr.getD 0x000090#24).toNat
    let f := composedFields w
    let raw := w.toNat % 2 ^ (w.format.width - 12)
    let signed := composedSigning w.format raw
    let taBase := composedFormula (composedSelect w.format f.n f.i f.b f.p) f raw signed pc b memmap
    let add : Int := if f.x = true ∧ (w.format = .f3 ∨ f4Index = true) then (x : Int) else 0
    let target := taBase.map (· + add)
    .record
      { format := w.format
        raw := w
        rawBin := rawBin w
        opcode := f.opcode
        mnemonic := (tableGet optab f.opcode).getD "UNKNOWN"
        nixbpe := nixbpe f
        dispRaw := f.disp
        dispSigned := signed
        modeLabel := modeLabel f
        target := target
        status := if target = none then .ambiguousAddressingMode else .computed
        value := target.bind (memRead memmap)
        machineClass := if w.format = .f3 ∧ f.n = false ∧ f.i = false then .sic else .sicXe }

end Sys2Proof.Machine
end

