-- ==== Sys2Proof/Safety.lean ====
section
/-! DEFINITION. What a good state of the block is, in the terms the claims use. -/

namespace Sys2Proof.Machine

/-- The range of R93: `[-2048, 33556477]`, where `33556477 = 2 * (2^24 - 1) + 2047`. -/
def TargetInRange (t : Int) : Prop := -2048 ≤ t ∧ t ≤ 33556477

/-- A record that hangs together under the tables `optab` and `memmap`. -/
structure Record.Consistent (optab : OpTab) (memmap : Memory) (r : Record) : Prop where
  /-- The format is that of the raw instruction (R62). -/
  format_raw : r.format = r.raw.format
  /-- The opcode is the masked top byte (R46). -/
  opcode_raw : r.opcode.toNat = r.raw.toNat / 2 ^ (r.format.width - 8) &&& 0xFC
  /-- The mnemonic is the table's (R69). -/
  mnemonic_optab : r.mnemonic = resolve optab r.opcode
  /-- The displacement or address is the low field of the raw instruction (R63, R64). -/
  dispRaw_raw : dispNat r.dispRaw = r.raw.toNat % 2 ^ (r.format.width - 12)
  /-- The signed reading has the bits of the raw one (R67, R68). -/
  dispSigned_mod : r.dispSigned % (2 : Int) ^ (r.format.width - 12) = (dispNat r.dispRaw : Int)
  /-- `Computed` exactly when there is a target (R20). -/
  status_target : r.status = .computed ↔ r.target.isSome = true
  /-- Format 4 always has a target (R109). -/
  format4_target : r.format = .f4 → r.target.isSome = true
  /-- Every target lies in the range of R93. -/
  target_range : ∀ t, r.target = some t → TargetInRange t
  /-- The value is the map at the target (R97, R98). -/
  value_memmap : r.value = r.target.bind (memRead memmap)
  /-- The machine class `SIC` is for format 3 only (R77). -/
  class_format : r.machineClass = .sic → r.format = .f3

/-- What may stand on the output port (R20, R106). -/
def OutputConsistent (s : State) : Prop :=
  match s.output with
  | none => True
  | some (.record r) => r.Consistent s.optab s.memmap
  | some (.error (.unsupportedLength n)) => n ≠ 6 ∧ n ≠ 8
  | some (.error .invalidHexInput) => True

/-- A good state: both tables are finite maps in canonical form, and the output hangs together with them. -/
structure State.Inv (s : State) : Prop where
  memmap_wf : s.memmap.wf = true
  optab_wf : s.optab.wf = true
  output_ok : OutputConsistent s

/-- The four ways a decode ends (R106), told by the result alone. -/
inductive Ending
  | computed
  | unsupportedLength
  | invalidHexInput
  | ambiguousAddressingMode
  deriving DecidableEq, Repr

/-- Which of them a result is. -/
def Result.ending : Result → Ending
  | .error (.unsupportedLength _) => .unsupportedLength
  | .error .invalidHexInput => .invalidHexInput
  | .record r => if r.target.isSome then .computed else .ambiguousAddressingMode

end Sys2Proof.Machine
end

