-- ==== Sys2Proof/Certificates/Slice0/Obligations.lean ====
section
/-! DEFINITION. The statements for the provers, from the numbered rules of spec/. A rule named in a docstring is the one
the statement formalises. -/

open Sys2Proof Sys2Proof.Machine

/-! ### The step and the decoder -/

/-- When the string on the `hex` port decodes to an instruction, the step is that instruction's meaning on the state as it
stands; the step adds nothing around it (R3, R99). -/
def Obligations.StepRunsDecodedInstruction : Prop :=
  ∀ (s : State) (hex : String) (i : Instr), s.hex = some hex → decodeHex hex = .ok i → step s = exec i s

/-- With no request on the ports the step leaves the outputs without a value and changes nothing else (R23; the model's
choice, log entry 2). -/
def Obligations.NoRequestGivesNoOutput : Prop :=
  ∀ s : State, s.hex = none → step s = .next { s with output := none }

/-- An instruction placed for the next step as the opcode table numbers its bits is run by that step, and nothing but the
`hex` port differs (the model's convention, log entries 15 and 16; that the output port differs in nothing either is the
model's choice, log entry 24). -/
def Obligations.PlacedTableWordIsRunByTheStep : Prop :=
  ∀ (s : State) (nbits w : Nat) (i : Instr), decodeTableWord nbits w = some i →
    ∃ hex, s.withFetchWord nbits w = { s with hex := some hex } ∧
      step (s.withFetchWord nbits w) = exec i { s with hex := some hex }

/-- Words written out from the patterns of R54, one for each case, decode to the instruction they stand for. -/
def Obligations.WordsOfEachRowDecode : Prop :=
  decodeHex "007FFF" = .ok (.f3Sic 0x00#8 false true true true 0xFFF#12) ∧
  decodeHex "032600" = .ok (.f3SimplePc 0x00#8 false false 0x600#12) ∧
  decodeHex "ABCDEF" = .ok (.f3SimpleBase 0xA8#8 true false 0xDEF#12) ∧
  decodeHex "031030" = .ok (.f3SimpleDirect 0x00#8 false true 0x030#12) ∧
  decodeHex "03E600" = .ok (.f3SimpleNorule 0x00#8 true false 0x600#12) ∧
  decodeHex "026030" = .ok (.f3IndirectPc 0x00#8 false true false 0x030#12) ∧
  decodeHex "024030" = .ok (.f3IndirectNorule 0x00#8 false true false 0x030#12) ∧
  decodeHex "016030" = .ok (.f3Immediate 0x00#8 false true true false 0x030#12) ∧
  decodeHex "12345678" = .ok (.f4Addr 0x10#8 true false false false true true 0x45678#20)

/-- For every well-formed instruction, the hex string of its encoding decodes to it, with every operand (R45, R54, R65). -/
def Obligations.HexOfEncodedInstructionDecodesBack : Prop :=
  ∀ i : Instr, i.wf = true → decodeHex (encode i).hex = .ok i

/-- Extraction loses nothing: every 24-bit and every 32-bit word decodes to a well-formed instruction whose encoding is
the word again (R55, R65). -/
def Obligations.EncodingADecodedWordGivesTheWord : Prop :=
  ∀ w : RawWord, (decodeRaw w).wf = true ∧ encode (decodeRaw w) = w

/-- Every word of either format matches one row of the table of R54 and no other, and that row's case is the decoder's. -/
def Obligations.EveryWordIsInExactlyOneCase : Prop :=
  ∀ w : RawWord, (∃! r, r ∈ caseTable ∧ r.matches w = true) ∧
    ∀ r ∈ caseTable, r.matches w = true → r.case = (decodeRaw w).decodeCase

/-- The case of a word is selected from its format and its bits n, i, b and p by the conditions of R78. The bits are read
at the positions of R42 and R43. It is the partition of the mask and match table of R54. -/
def Obligations.CaseIsSelectedFromRawBits : Prop :=
  (∀ w : BitVec 24, (decodeRaw (.f3 w)).decodeCase =
    if w.getLsbD 17 = false ∧ w.getLsbD 16 = false then .f3Sic
    else if w.getLsbD 17 = true ∧ w.getLsbD 16 = true then
      if w.getLsbD 13 = true ∧ w.getLsbD 14 = false then .f3SimplePc
      else if w.getLsbD 13 = false ∧ w.getLsbD 14 = true then .f3SimpleBase
      else if w.getLsbD 13 = false ∧ w.getLsbD 14 = false then .f3SimpleDirect
      else .f3SimpleNorule
    else if w.getLsbD 17 = true ∧ w.getLsbD 16 = false then
      if w.getLsbD 13 = true then .f3IndirectPc else .f3IndirectNorule
    else .f3Immediate) ∧
  (∀ w : BitVec 32, (decodeRaw (.f4 w)).decodeCase = .f4Addr) ∧
  (∀ (w : RawWord), ∀ r ∈ caseTable, r.matches w = true ↔ r.case = (decodeRaw w).decodeCase)

/-! ### The parser -/

/-- The number of digits alone selects the format (R41): every string of 6 digit characters is a format-3 word, every
string of 8 a format-4 word, and no other string parses to either. That `a` to `f` are digit characters as `A` to `F` are
is the spec's decision D6 (R61, log entry 10). That another length is `UnsupportedLength` with the length in it, before
any character is looked at, is the spec's decisions D10 and D7 (log entries 12 and 11). -/
def Obligations.FormatComesFromTheDigitCount : Prop :=
  ∀ hex : String,
    ((∀ c ∈ hex.toList, c ∈ "0123456789ABCDEFabcdef".toList) →
      (hex.length = 6 → ∃ w : BitVec 24, parse hex = .ok (.f3 w)) ∧
      (hex.length = 8 → ∃ w : BitVec 32, parse hex = .ok (.f4 w))) ∧
    (∀ w, parse hex = .ok w →
      (w.format = .f3 ↔ hex.length = 6) ∧ (w.format = .f4 ↔ hex.length = 8)) ∧
    (hex.length ≠ 6 → hex.length ≠ 8 → parse hex = .error (.unsupportedLength hex.length))

/-- A string of 6 or 8 digits `0`-`9`, `A`-`F` parses to the value of its base-16 numeral, first character most significant
(R45). A digit's value is its place in `0123456789ABCDEF`; that lower case means the same is
`LetterCaseOfDigitsDoesNotMatter`. -/
def Obligations.ParsedWordIsTheHexNumeral : Prop :=
  ∀ hex : String, hex.length = 6 ∨ hex.length = 8 →
    (∀ c ∈ hex.toList, c ∈ "0123456789ABCDEF".toList) →
    ∃ w, parse hex = .ok w ∧ (w.format = .f3 ↔ hex.length = 6) ∧
      w.toNat = ((List.range hex.length).map fun k =>
        "0123456789ABCDEF".toList.idxOf (hex.toList.getD k '0') * 16 ^ (hex.length - 1 - k)).sum

/-- A string of any other length ends the decode with `UnsupportedLength` and no record, whatever its characters are
(R60, R107; that the length is carried and that this check is first are 92_eei_decisions.md D10 and D7). -/
def Obligations.OtherLengthsAreUnsupported : Prop :=
  ∀ (s : State) (hex : String), s.hex = some hex → hex.length ≠ 6 → hex.length ≠ 8 →
    step s = .next { s with output := some (.error (.unsupportedLength hex.length)) }

/-- A string of 6 or 8 characters, one of which is none of the 22 digit characters, ends the decode with
`InvalidHexInput` and no record (R61, R108; 92_eei_decisions.md D6, D17). -/
def Obligations.NonDigitsAreInvalidHexInput : Prop :=
  ∀ (s : State) (hex : String) (c : Char), s.hex = some hex → hex.length = 6 ∨ hex.length = 8 →
    c ∈ hex.toList → c ∉ "0123456789ABCDEFabcdef".toList →
    step s = .next { s with output := some (.error .invalidHexInput) }

/-- Upper and lower case letters mean the same (R61; the spec's decision D6). -/
def Obligations.LetterCaseOfDigitsDoesNotMatter : Prop :=
  ∀ hex : String, parse (String.ofList (hex.toList.map Char.toLower)) = parse hex

/-- On a 32-bit instruction bus a format-3 word is read from bits 23:0 and bits 31:24 are ignored, and a format-4 word is
the whole bus (R13; the spec's decision D1). -/
def Obligations.BusCarriesFormat3InItsLow24Bits : Prop :=
  ∀ bus : BitVec 32, (RawWord.ofBus .f3 bus).toNat = bus.toNat % 2 ^ 24 ∧ (RawWord.ofBus .f3 bus).format = .f3 ∧
    (RawWord.ofBus .f4 bus).toNat = bus.toNat ∧ (RawWord.ofBus .f4 bus).format = .f4

/-! ### The register context and reset -/

/-- For each register the value used is the override when one is supplied and the default otherwise, decided for each
request and each register independently; an earlier override does not persist (R15, R16). -/
def Obligations.OmittedRegistersReadTheirDefaults : Prop :=
  ∀ (s : State) (hex : String) (p b x : Option Reg),
    (s.present hex p b x).regPc = (match p with | some v => v | none => 0x003000#24) ∧
    (s.present hex p b x).regB = (match b with | some v => v | none => 0x006000#24) ∧
    (s.present hex p b x).regX = (match x with | some v => v | none => 0x000090#24)

/-- Before the first request PC, B and X read as their defaults and the outputs have no value (R15, R16, R23; that reset
presents no request is the model's choice, log entry 2). -/
def Obligations.ResetReadsTheDefaults : Prop :=
  State.reset.regPc = 0x003000#24 ∧ State.reset.regB = 0x006000#24 ∧ State.reset.regX = 0x000090#24 ∧
    State.reset.hex = none ∧ State.reset.output = none

/-! ### The nine cases: result, completion and frame -/

/-- F3.SIC (R82): the target is the low 15 bits of the instruction, plus `reg.x` when x = 1; no register but X is used. -/
def Obligations.SicTargetIsTheLow15Bits : Prop :=
  ∀ (op : Opcode) (x b p e : Bool) (d : Disp) (s : State),
    ∃ r, exec (.f3Sic op x b p e d) s = .next { s with output := some (.record r) } ∧
      r.raw = encode (.f3Sic op x b p e d) ∧
      r.target = some (((b.toNat * 2 ^ 14 + p.toNat * 2 ^ 13 + e.toNat * 2 ^ 12 + d.toNat : Nat) : Int) +
        if x then ((s.xOvr.getD 0x000090#24).toNat : Int) else 0) ∧
      b.toNat * 2 ^ 14 + p.toNat * 2 ^ 13 + e.toNat * 2 ^ 12 + d.toNat = r.raw.toNat % 2 ^ 15 ∧
      r.status = .computed ∧ r.value = r.target.bind (memRead s.memmap)

/-- F3.SIMPLE.PC (R83, R92): the exact sum of the caller's PC and the signed displacement, plus `reg.x` when x = 1. -/
def Obligations.PcRelativeTargetAddsTheSignedDisplacement : Prop :=
  ∀ (op : Opcode) (x e : Bool) (d : Disp) (s : State),
    ∃ r, exec (.f3SimplePc op x e d) s = .next { s with output := some (.record r) } ∧
      r.target = some (((s.pcOvr.getD 0x003000#24).toNat : Int) + d.toInt +
        if x then ((s.xOvr.getD 0x000090#24).toNat : Int) else 0) ∧
      r.status = .computed ∧ r.value = r.target.bind (memRead s.memmap)

/-- F3.SIMPLE.BASE (R84, R92): the exact sum of B and the signed displacement, plus `reg.x` when x = 1. -/
def Obligations.BaseRelativeTargetAddsTheSignedDisplacement : Prop :=
  ∀ (op : Opcode) (x e : Bool) (d : Disp) (s : State),
    ∃ r, exec (.f3SimpleBase op x e d) s = .next { s with output := some (.record r) } ∧
      r.target = some (((s.bOvr.getD 0x006000#24).toNat : Int) + d.toInt +
        if x then ((s.xOvr.getD 0x000090#24).toNat : Int) else 0) ∧
      r.status = .computed ∧ r.value = r.target.bind (memRead s.memmap)

/-- F3.SIMPLE.DIRECT (R85, R92): the displacement, unsigned, plus `reg.x` when x = 1. -/
def Obligations.DirectTargetIsTheUnsignedDisplacement : Prop :=
  ∀ (op : Opcode) (x e : Bool) (d : Disp) (s : State),
    ∃ r, exec (.f3SimpleDirect op x e d) s = .next { s with output := some (.record r) } ∧
      r.target = some ((d.toNat : Int) + if x then ((s.xOvr.getD 0x000090#24).toNat : Int) else 0) ∧
      r.status = .computed ∧ r.value = r.target.bind (memRead s.memmap)

/-- F3.SIMPLE.NORULE (R86): the record carries every extracted field; target and value are absent, x adds nothing, and
the status is `AmbiguousAddressingMode`. That its machine class is `SIC/XE` is R77's format-3 half, the spec's decision D5
(log entry 9). -/
def Obligations.SimpleWithBothBitsHasNoTarget : Prop :=
  ∀ (op : Opcode) (x e : Bool) (d : Disp) (s : State),
    ∃ r, exec (.f3SimpleNorule op x e d) s = .next { s with output := some (.record r) } ∧
      r.target = none ∧ r.value = none ∧ r.status = .ambiguousAddressingMode ∧
      r.format = .f3 ∧ r.raw = encode (.f3SimpleNorule op x e d) ∧ r.opcode = op ∧ r.dispRaw = .disp d ∧
      r.dispSigned = d.toInt ∧ r.machineClass = .sicXe ∧
      r.nixbpe = (if x then "111" else "110") ++ (if e then "111" else "110") ∧
      r.modeLabel = "Simple addressing, PC-relative, Base-relative" ++ if x then ", Indexed" else ""

/-- F3.INDIRECT.PC (R87, R92): the target is the memory-map value at PC plus the signed displacement, or 0 when that is no
key, and then `reg.x` is added when x = 1; b is not consulted and the value found is not followed again. -/
def Obligations.IndirectTargetIsTheValueAtThePointer : Prop :=
  ∀ (op : Opcode) (x b e : Bool) (d : Disp) (s : State),
    ∃ r, exec (.f3IndirectPc op x b e d) s = .next { s with output := some (.record r) } ∧
      r.target = some (
        (match memRead s.memmap (((s.pcOvr.getD 0x003000#24).toNat : Int) + d.toInt) with
          | some v => (v.toNat : Int)
          | none => 0) +
        if x then ((s.xOvr.getD 0x000090#24).toNat : Int) else 0) ∧
      r.status = .computed ∧ r.value = r.target.bind (memRead s.memmap)

/-- F3.INDIRECT.NORULE (R88): as F3.SIMPLE.NORULE, whatever b is. That its machine class is `SIC/XE` is R77's format-3 half,
the spec's decision D5 (log entry 9). -/
def Obligations.IndirectWithoutPcBitHasNoTarget : Prop :=
  ∀ (op : Opcode) (x b e : Bool) (d : Disp) (s : State),
    ∃ r, exec (.f3IndirectNorule op x b e d) s = .next { s with output := some (.record r) } ∧
      r.target = none ∧ r.value = none ∧ r.status = .ambiguousAddressingMode ∧
      r.format = .f3 ∧ r.raw = encode (.f3IndirectNorule op x b e d) ∧ r.opcode = op ∧ r.dispRaw = .disp d ∧
      r.dispSigned = d.toInt ∧ r.machineClass = .sicXe ∧
      r.nixbpe = (if x then "101" else "100") ++ (if b then "10" else "00") ++ (if e then "1" else "0") ∧
      r.modeLabel = "Indirect addressing" ++ (if b then ", Base-relative" else "") ++ if x then ", Indexed" else ""

/-- F3.IMMEDIATE (R89, R51, R92): the target is the raw displacement, never sign-extended, plus `reg.x` when x = 1; b and p
are not consulted. -/
def Obligations.ImmediateTargetIsTheRawDisplacement : Prop :=
  ∀ (op : Opcode) (x b p e : Bool) (d : Disp) (s : State),
    ∃ r, exec (.f3Immediate op x b p e d) s = .next { s with output := some (.record r) } ∧
      r.target = some ((if d.toInt ≥ 0 then d.toInt else (d.toNat : Int)) +
        if x then ((s.xOvr.getD 0x000090#24).toNat : Int) else 0) ∧
      (if d.toInt ≥ 0 then d.toInt else (d.toNat : Int)) = (d.toNat : Int) ∧
      r.status = .computed ∧ r.value = r.target.bind (memRead s.memmap)

/-- F4.ADDR (R90): the target is the 20-bit field whatever n, i, b, p and e are. With `F4_INDEX = false`, its decided value,
x adds nothing; with `F4_INDEX = true` x = 1 adds `reg.x` (90_conflicts.md C4, 92_eei_decisions.md D4). -/
def Obligations.Format4TargetIsTheAddressField : Prop :=
  ∀ (op : Opcode) (n i x b p e : Bool) (a : AddrField) (s : State),
    ∃ r, exec (.f4Addr op n i x b p e a) s = .next { s with output := some (.record r) } ∧
      (s.f4Index = false → r.target = some (a.toNat : Int)) ∧
      (s.f4Index = true → r.target = some ((a.toNat : Int) +
        if x then ((s.xOvr.getD 0x000090#24).toNat : Int) else 0)) ∧
      r.status = .computed ∧ r.value = r.target.bind (memRead s.memmap)

/-! ### The record -/

/-- Every instruction, whatever its opcode byte, its case and the state, completes with a whole record: only `target` and
`value` may be absent (R20, R55, R99, R105). -/
def Obligations.EveryInstructionCompletesWithAWholeRecord : Prop :=
  ∀ (i : Instr) (s : State),
    ∃ r, exec i s = .next { s with output := some (.record r) } ∧
      r.raw = encode i ∧ r.format = r.raw.format ∧ r.opcode = i.opcode ∧ r.dispRaw = i.fields.disp ∧
      r.value = r.target.bind (memRead s.memmap) ∧
      (r.status = .computed ↔ r.target.isSome = true) ∧
      (r.target = none ↔ i.decodeCase = .f3SimpleNorule ∨ i.decodeCase = .f3IndirectNorule)

/-- Field extraction is bit-exact in both formats (R63, R64): the opcode byte is the masked top byte, the six flag bits are
the bits of the word at the stated positions, and the displacement or address is its low field. -/
def Obligations.ExtractedFieldsAreBitExact : Prop :=
  (∀ (w : BitVec 24) (s : State), ∃ r, exec (decodeRaw (.f3 w)) s = .next { s with output := some (.record r) } ∧
    r.raw = .f3 w ∧ r.opcode.toNat = (w.toNat >>> 16) &&& 0xFC ∧
    r.nixbpe.toList = [17, 16, 15, 14, 13, 12].map (fun k => if w.toNat.testBit k then '1' else '0') ∧
    ∃ d, r.dispRaw = .disp d ∧ d.toNat = w.toNat % 2 ^ 12) ∧
  (∀ (w : BitVec 32) (s : State), ∃ r, exec (decodeRaw (.f4 w)) s = .next { s with output := some (.record r) } ∧
    r.raw = .f4 w ∧ r.opcode.toNat = (w.toNat >>> 24) &&& 0xFC ∧
    r.nixbpe.toList = [25, 24, 23, 22, 21, 20].map (fun k => if w.toNat.testBit k then '1' else '0') ∧
    ∃ a, r.dispRaw = .addr a ∧ a.toNat = w.toNat % 2 ^ 20)

/-- The signed displacement (R67, R68): in format 3 the two's-complement reading of the 12 bits, in `[-2048, 2047]`, with
the same bits modulo 4096; in format 4 the address field itself, also when bit 19 is set. It is computed for every
instruction, used or not. -/
def Obligations.SignedDisplacementIsTwosComplement : Prop :=
  ∀ (i : Instr) (s : State), ∃ r, exec i s = .next { s with output := some (.record r) } ∧
    (∀ d, r.dispRaw = .disp d →
      r.dispSigned = (if d.toNat ≥ 0x800 then (d.toNat : Int) - 0x1000 else (d.toNat : Int)) ∧
      -2048 ≤ r.dispSigned ∧ r.dispSigned ≤ 2047 ∧ r.dispSigned % 4096 = (d.toNat : Int)) ∧
    (∀ a, r.dispRaw = .addr a → r.dispSigned = (a.toNat : Int))

/-- The mnemonic is the table's entry for the opcode byte and `"UNKNOWN"` for a byte that is no key, which is no error; a
different table changes no other field (R69). -/
def Obligations.MnemonicIsTheTableEntryOrUnknown : Prop :=
  ∀ (i : Instr) (s : State), s.optab.wf = true →
    ∃ r, exec i s = .next { s with output := some (.record r) } ∧
      (∀ name, (i.opcode, name) ∈ s.optab → r.mnemonic = name) ∧
      ((∀ q ∈ s.optab, q.1 ≠ i.opcode) → r.mnemonic = "UNKNOWN") ∧
      ∀ t : OpTab, ∃ m, exec i { s with optab := t } =
        .next { s with optab := t, output := some (.record { r with mnemonic := m }) }

/-- The mode label (R71, R73 to R76): the class string of (n, i); in format 3 `PC-relative` when p = 1 and then
`Base-relative` when b = 1; in format 4 `Extended` when e = 1; last `Indexed` when x = 1, in either format. -/
def Obligations.ModeLabelIsClassThenSuffixes : Prop :=
  ∀ (i : Instr) (s : State), ∃ r, exec i s = .next { s with output := some (.record r) } ∧
    r.modeLabel =
      (if i.fields.n then (if i.fields.i then "Simple addressing" else "Indirect addressing")
        else (if i.fields.i then "Immediate addressing" else "SIC format")) ++
      ((if r.format = .f3 ∧ i.fields.p = true then ", PC-relative" else "") ++
        (if r.format = .f3 ∧ i.fields.b = true then ", Base-relative" else "") ++
        (if r.format = .f4 ∧ i.fields.e = true then ", Extended" else "")) ++
      (if i.fields.x then ", Indexed" else "")

/-- The label tells exactly the bits it shows (R76): two format-3 instructions have the same label when and only when they
agree in n, i, x, b and p (not in e, which it does not show), two format-4 instructions when and only when they agree in
n, i, x and e (not in b and p). It takes 32 values in format 3 and 16 in format 4. -/
def Obligations.ModeLabelTellsTheBitsItShows : Prop :=
  (∀ (i j : Instr) (s t : State) (r q : Record),
    exec i s = .next { s with output := some (.record r) } → exec j t = .next { t with output := some (.record q) } →
    r.format = q.format →
    (r.modeLabel = q.modeLabel ↔
      i.fields.n = j.fields.n ∧ i.fields.i = j.fields.i ∧ i.fields.x = j.fields.x ∧
        (r.format = .f3 → i.fields.b = j.fields.b ∧ i.fields.p = j.fields.p) ∧
        (r.format = .f4 → i.fields.e = j.fields.e))) ∧
  (∃ labels : List String, labels.length = 32 ∧ labels.Nodup ∧ ∀ text, text ∈ labels ↔
    ∃ i s r, exec i s = .next { s with output := some (.record r) } ∧ r.format = .f3 ∧ r.modeLabel = text) ∧
  (∃ labels : List String, labels.length = 16 ∧ labels.Nodup ∧ ∀ text, text ∈ labels ↔
    ∃ i s r, exec i s = .next { s with output := some (.record r) } ∧ r.format = .f4 ∧ r.modeLabel = text)

/-- The machine class is `SIC` for a format-3 instruction with n = 0 and i = 0 and `SIC/XE` for every other; format 4 is
never plain SIC (R77; the format-3 half is the spec's decision D5). -/
def Obligations.OnlyFormat3SicWordsAreMachineClassSic : Prop :=
  ∀ (w : RawWord) (s : State), ∃ r, exec (decodeRaw w) s = .next { s with output := some (.record r) } ∧
    (r.machineClass = .sic ↔ w.format = .f3 ∧ w.toNat / 2 ^ 16 % 4 = 0)

/-- `raw_bin` (R101): its digits are exactly the 24 or 32 bits of the instruction, most significant first, with one
separator after each four but none at the end (the separator is the spec's decision D11). -/
def Obligations.BinaryRenderingHasExactWidth : Prop :=
  ∀ (i : Instr) (s : State), ∃ r, exec i s = .next { s with output := some (.record r) } ∧
    (r.rawBin.toList.filter (· ≠ ' ')).length = r.format.width ∧
    (r.rawBin.toList.filter (· ≠ ' ')).foldl (fun acc c => 2 * acc + if c = '1' then 1 else 0) 0 = r.raw.toNat ∧
    (∀ c ∈ r.rawBin.toList, c = '0' ∨ c = '1' ∨ c = ' ') ∧
    r.rawBin.length = r.format.width + r.format.width / 4 - 1 ∧
    ∀ k, k < r.rawBin.length → (r.rawBin.toList[k]? = some ' ' ↔ k % 5 = 4)

/-- The field renderings (R102): a displacement in 12 binary digits (3 groups) and 3 hex digits, an address in 20 binary
digits (5 groups) and 5 hex digits, both of the raw field, the groups parted as in R101 by one space after each four
digits and none at the end. The raw instruction's hex rendering has 6 or 8 digits and parses to it. Separator and upper
case are the spec's decision D11 (log entry 13). -/
def Obligations.FieldRenderingsReadBack : Prop :=
  ∀ r : Record,
    (∀ d, r.dispRaw = .disp d →
      (r.dispBin.toList.filter (· ≠ ' ')).length = 12 ∧ r.dispBin.length = 14 ∧
      (r.dispBin.toList.filter (· ≠ ' ')).foldl (fun acc c => 2 * acc + if c = '1' then 1 else 0) 0 = d.toNat ∧
      r.dispHex.length = 3 ∧
      r.dispHex.toList.foldl (fun acc c => 16 * acc + "0123456789ABCDEF".toList.idxOf c) 0 = d.toNat) ∧
    (∀ a, r.dispRaw = .addr a →
      (r.dispBin.toList.filter (· ≠ ' ')).length = 20 ∧ r.dispBin.length = 24 ∧
      (r.dispBin.toList.filter (· ≠ ' ')).foldl (fun acc c => 2 * acc + if c = '1' then 1 else 0) 0 = a.toNat ∧
      r.dispHex.length = 5 ∧
      r.dispHex.toList.foldl (fun acc c => 16 * acc + "0123456789ABCDEF".toList.idxOf c) 0 = a.toNat) ∧
    (∀ c ∈ r.dispBin.toList, c = '0' ∨ c = '1' ∨ c = ' ') ∧
    (∀ k, k < r.dispBin.length → (r.dispBin.toList[k]? = some ' ' ↔ k % 5 = 4)) ∧
    (∀ c ∈ r.dispHex.toList, c ∈ "0123456789ABCDEF".toList) ∧
    (∀ c ∈ r.rawHex.toList, c ∈ "0123456789ABCDEF".toList) ∧
    (∀ w, r.raw = .f3 w → r.rawHex.length = 6) ∧ (∀ w, r.raw = .f4 w → r.rawHex.length = 8) ∧
    parse r.rawHex = .ok r.raw

/-- The lines of the report stand in the order of R103; the memory-value line is there only when there is a value. -/
def Obligations.ReportLinesStandInTheFixedOrder : Prop :=
  ∀ r : Record,
    (∀ v, r.value = some v → r.report =
      [.binary r.rawBin, .opcode r.opcode, .nixbpe r.nixbpe, .field r.dispBin r.dispHex, .targetAddress r.target,
        .computationTrace, .memoryValue v, .addressingMode r.modeLabel, .format r.format,
        .machineClass r.machineClass.text, .mnemonic r.mnemonic]) ∧
    (r.value = none → r.report =
      [.binary r.rawBin, .opcode r.opcode, .nixbpe r.nixbpe, .field r.dispBin r.dispHex, .targetAddress r.target,
        .computationTrace, .addressingMode r.modeLabel, .format r.format, .machineClass r.machineClass.text,
        .mnemonic r.mnemonic])

/-! ### Memory -/

/-- `MemRead` gives `some v` exactly when the map has an entry of that address with the value `v`, and `none` exactly when
the address is no key, for every integer address (R29). -/
def Obligations.MemoryReadIsTheEntryOfItsKey : Prop :=
  ∀ (m : Memory) (a : Int), m.wf = true →
    (∀ v, memRead m a = some v ↔ (a, v) ∈ m) ∧ (memRead m a = none ↔ ∀ q ∈ m, q.1 ≠ a)

/-- The value field (R97, R98): the entry at the final target, after indexing, in every case that computed a target; absent
when the target is no key, and absent when there is no target; the status tells the two apart. -/
def Obligations.ValueIsTheEntryAtTheFinalTarget : Prop :=
  ∀ (i : Instr) (s : State), s.memmap.wf = true →
    ∃ r, exec i s = .next { s with output := some (.record r) } ∧
      (∀ t v, r.target = some t → (t, v) ∈ s.memmap → r.value = some v) ∧
      (∀ t, r.target = some t → (∀ q ∈ s.memmap, q.1 ≠ t) → r.value = none) ∧
      (r.target = none → r.value = none) ∧
      (r.status = .computed ↔ r.target.isSome = true) ∧
      (r.status = .ambiguousAddressingMode ↔ r.target = none)

/-- The two reads treat an absent key differently (R31): an absent pointer gives the target 0, plus `reg.x` when x = 1, and
the decode goes on; an absent target leaves the value absent. -/
def Obligations.AbsentKeysReadAsZeroOrAsNothing : Prop :=
  (∀ (op : Opcode) (x b e : Bool) (d : Disp) (s : State),
    (∀ q ∈ s.memmap, q.1 ≠ ((s.pcOvr.getD 0x003000#24).toNat : Int) + d.toInt) →
    ∃ r, exec (.f3IndirectPc op x b e d) s = .next { s with output := some (.record r) } ∧
      r.target = some (if x then ((s.xOvr.getD 0x000090#24).toNat : Int) else 0) ∧ r.status = .computed) ∧
  (∀ (i : Instr) (s : State), ∃ r, exec i s = .next { s with output := some (.record r) } ∧
    ∀ t, r.target = some t → (∀ q ∈ s.memmap, q.1 ≠ t) → r.value = none ∧ r.status = .computed)

/-- Empty tables are no error: every mnemonic is `"UNKNOWN"`, every pointer read gives 0 and every value is absent
(R122). -/
def Obligations.EmptyTablesAreNoError : Prop :=
  ∀ (i : Instr) (s : State), s.optab = [] → s.memmap = [] →
    ∃ r, exec i s = .next { s with output := some (.record r) } ∧ r.mnemonic = "UNKNOWN" ∧ r.value = none ∧
      (i.decodeCase = .f3IndirectPc →
        r.target = some (if i.x then ((s.xOvr.getD 0x000090#24).toNat : Int) else 0))

/-! ### Rules about the whole block -/

/-- A decode has no target exactly for the two format-3 patterns of R109, a function of the instruction bits alone; then
value is absent too and the status says so. -/
def Obligations.AmbiguousExactlyForTheTwoPatterns : Prop :=
  ∀ (w : RawWord) (s : State), ∃ r, exec (decodeRaw w) s = .next { s with output := some (.record r) } ∧
    (r.status = .ambiguousAddressingMode ↔
      w.format = .f3 ∧ (w.toNat &&& 0x036000 = 0x036000 ∨ w.toNat &&& 0x032000 = 0x020000)) ∧
    (r.status = .ambiguousAddressingMode ↔ r.target = none) ∧
    (r.status = .ambiguousAddressingMode → r.value = none)

/-- Indexing (R92): setting bit 15 of a format-3 word adds `reg.x` to its target, if it has one, whatever its case, the
SIC format included; a word without a target stays without one. In format 4 bit 23 adds nothing while `F4_INDEX` has its
decided value `false` (R90; the spec's decision D4). -/
def Obligations.IndexBitAddsXToEveryFormat3Target : Prop :=
  (∀ (w : BitVec 24) (s : State), w.getLsbD 15 = false →
    ∃ r q, exec (decodeRaw (.f3 w)) s = .next { s with output := some (.record r) } ∧
      exec (decodeRaw (.f3 (w ||| 0x008000#24))) s = .next { s with output := some (.record q) } ∧
      q.target = r.target.map (· + ((s.xOvr.getD 0x000090#24).toNat : Int))) ∧
  (∀ (w : BitVec 32) (s : State), s.f4Index = false →
    ∃ r q, exec (decodeRaw (.f4 w)) s = .next { s with output := some (.record r) } ∧
      exec (decodeRaw (.f4 (w ||| 0x00800000#32))) s = .next { s with output := some (.record q) } ∧
      q.target = r.target)

/-- Every target lies in `[-2048, 33556477]`, for either value of `F4_INDEX`, so that 27 bits of two's complement hold it;
both ends are reached (R93). -/
def Obligations.TargetsFitIn27BitsTwosComplement : Prop :=
  (∀ (i : Instr) (s : State), ∃ r, exec i s = .next { s with output := some (.record r) } ∧
    ∀ t, r.target = some t →
      -2048 ≤ t ∧ t ≤ 33556477 ∧ (BitVec.ofInt Config.targetBusWidth t).toInt = t) ∧
  (∃ i s r, exec i s = .next { s with output := some (.record r) } ∧ r.target = some (-2048)) ∧
  (∃ i s r, exec i s = .next { s with output := some (.record r) } ∧ r.target = some 33556477)

/-- A register that a case does not read does not influence any field (R14): only the two PC-relative cases read PC, only
F3.SIMPLE.BASE reads B, and X is read only in format 3 with x = 1 and a target, when `F4_INDEX` has its decided value. -/
def Obligations.UnreadRegistersDoNotMatter : Prop :=
  ∀ (i : Instr) (s : State) (v : Option Reg),
    ∃ r, exec i s = .next { s with output := some (.record r) } ∧
      (i.decodeCase ≠ .f3SimplePc → i.decodeCase ≠ .f3IndirectPc →
        exec i { s with pcOvr := v } = .next { s with pcOvr := v, output := some (.record r) }) ∧
      (i.decodeCase ≠ .f3SimpleBase →
        exec i { s with bOvr := v } = .next { s with bOvr := v, output := some (.record r) }) ∧
      (i.x = false ∨ r.target = none ∨ (r.format = .f4 ∧ s.f4Index = false) →
        exec i { s with xOvr := v } = .next { s with xOvr := v, output := some (.record r) })

/-- In format 3 the e bit is an address bit of the SIC format and is otherwise ignored (R53, R57): setting bit 12 of a word
whose n and i are not both 0 changes the fields that show the word itself and no other. -/
def Obligations.EBitChangesNothingOutsideSicFormat : Prop :=
  ∀ (w : BitVec 24) (s : State), w.getLsbD 17 = true ∨ w.getLsbD 16 = true → w.getLsbD 12 = false →
    ∃ r q, exec (decodeRaw (.f3 w)) s = .next { s with output := some (.record r) } ∧
      exec (decodeRaw (.f3 (w ||| 0x001000#24))) s = .next { s with output := some (.record q) } ∧
      q = { r with raw := q.raw, rawBin := q.rawBin, nixbpe := q.nixbpe }

/-- A step writes the output port and nothing else: every input port, both tables and the parameter are unchanged, and
every address of the memory map reads as before (R3, R14, R28). That the request itself stays on the ports is the model's
choice (log entry 4), and so is that `F4_INDEX` is a field which a step could change (log entry 6). -/
def Obligations.StepWritesOnlyTheOutput : Prop :=
  ∀ s t : State, step s = .next t →
    t.hex = s.hex ∧ t.pcOvr = s.pcOvr ∧ t.bOvr = s.bOvr ∧ t.xOvr = s.xOvr ∧ t.optab = s.optab ∧
      t.f4Index = s.f4Index ∧ t.memmap = s.memmap ∧ ∀ a : Int, memRead t.memmap a = memRead s.memmap a

/-- An instruction writes the output port and nothing else (R14, R28): registers, tables and every address of the memory
map read as before. It stores nothing in any form. That the request stays on the `hex` port is the model's choice (log
entry 4). -/
def Obligations.InstructionWritesOnlyTheOutput : Prop :=
  ∀ (i : Instr) (s t : State), exec i s = .next t →
    t.hex = s.hex ∧ t.pcOvr = s.pcOvr ∧ t.bOvr = s.bOvr ∧ t.xOvr = s.xOvr ∧ t.regPc = s.regPc ∧ t.regB = s.regB ∧
      t.regX = s.regX ∧ t.optab = s.optab ∧ t.f4Index = s.f4Index ∧ t.memmap = s.memmap ∧
      ∀ a : Int, memRead t.memmap a = memRead s.memmap a

/-- A step reads nothing that an earlier step wrote (R3, R114): whatever stands on the output port, the step answers the
same. -/
def Obligations.EarlierOutputDoesNotMatter : Prop :=
  ∀ (s : State) (o : Option Result), step { s with output := o } = step s

/-- Repeating a decode of the request that is still presented gives the same result (R29, R100). That a step leaves the
request on the ports, so that the next step decodes it again, is the model's choice (log entry 4); a block that consumes
its request would give no such second decode. -/
def Obligations.RepeatedDecodeGivesTheSameResult : Prop :=
  ∀ s t : State, step s = .next t → step t = .next t

/-- Every decode ends in a result: a step neither faults nor refuses, and with a request presented the output has a value
(R106, R124). That the output of a step without a request has no value, the other half of the equivalence, is the
model's choice (log entry 2). -/
def Obligations.EveryDecodeEndsInAResult : Prop :=
  ∀ s : State, ∃ t, step s = .next t ∧ (t.output.isSome = true ↔ s.hex.isSome = true)

/-- The code `err` names the ending of a decode: 0 when a target was computed, 1 and 2 for the parser's errors, 3 when the
record has no target (R106; the codes are the spec's decision D10). -/
def Obligations.ErrorCodeNamesTheEnding : Prop :=
  ∀ (s t : State) (res : Result), step s = .next t → t.output = some res →
    res.err = (match res.ending with
      | .computed => 0#2
      | .unsupportedLength => 1#2
      | .invalidHexInput => 2#2
      | .ambiguousAddressingMode => 3#2)

/-- The step computes the composition of R99: whatever request is presented, the output is the composition's result and
nothing else changes. `composedDecode` transcribes extraction, signing, select, formulas, index adder, lookups and record
from the pseudocode; `parse`, `rawBin`, `nixbpe` and `modeLabel` in it are the model's own, pinned by the statements on
each. Both sides take over the spec's decisions D3 to D8, D10, D11 and D17 (log entries 6, 7 and 9 to 13). -/
def Obligations.StepComputesTheComposedDecode : Prop :=
  ∀ (s : State) (hex : String), s.hex = some hex →
    step s = .next { s with
      output := some (composedDecode hex s.pcOvr s.bOvr s.xOvr s.optab s.memmap s.f4Index) }

/-- The decodes of a batch are independent (R3, R114, R118): each result is that of its own request and the tables alone,
whatever came before it, errors included, and whatever stood on the ports at the start. That a batch is decoded in
sequence by one decoder is the model's choice (log entry 19). -/
def Obligations.BatchResultsAreIndependent : Prop :=
  ∀ (s : State) (requests : List Request),
    runBatch s requests = requests.map fun q =>
      some (composedDecode q.hex q.pcOvr q.bOvr q.xOvr s.optab s.memmap s.f4Index)

/-- Every step keeps the invariant: canonical tables, and an output that hangs together with them. -/
def Obligations.StepKeepsStateConsistent : Prop :=
  ∀ s t : State, s.Inv → step s = .next t → t.Inv

/-- The reset state meets the invariant (its empty tables are the model's choice, log entry 5). -/
def Obligations.ResetStateIsConsistent : Prop := State.reset.Inv
end

