-- ==== Sys2Proof/Laws/Decode.lean ====
section
/-! SUPPORT. The bits of an encoded word, said once. -/

namespace Sys2Proof

/-- A one-bit word. -/
theorem getLsbD_flagBit (w k j : Nat) (f : Bool) (h : k < w) :
    (flagBit w k f).getLsbD j = (decide (j = k) && f) := by
  obtain low | rfl | high := Nat.lt_trichotomy j k
  · simp [flagBit, low, low.ne]
  · simp [flagBit, h]
  · simp [flagBit, Nat.sub_ne_zero_of_lt high, high.ne']

/-- The bits of a format-3 word, at the places of R42. -/
theorem getLsbD_pack3 (op : Opcode) (n i x b p e : Bool) (d : Disp) (k : Nat) :
    (pack3 op n i x b p e d).getLsbD k =
      (((op &&& 0xFC#8).setWidth 24 <<< 16).getLsbD k || (decide (k = 17) && n) || (decide (k = 16) && i) ||
        (decide (k = 15) && x) || (decide (k = 14) && b) || (decide (k = 13) && p) || (decide (k = 12) && e) ||
        (decide (k < 24) && d.getLsbD k)) := by
  simp only [pack3, BitVec.getLsbD_or, BitVec.getLsbD_setWidth]
  simp only [getLsbD_flagBit 24 17 k n (by omega), getLsbD_flagBit 24 16 k i (by omega),
    getLsbD_flagBit 24 15 k x (by omega), getLsbD_flagBit 24 14 k b (by omega),
    getLsbD_flagBit 24 13 k p (by omega), getLsbD_flagBit 24 12 k e (by omega)]

/-- The bits of a format-4 word, at the places of R43. -/
theorem getLsbD_pack4 (op : Opcode) (n i x b p e : Bool) (a : AddrField) (k : Nat) :
    (pack4 op n i x b p e a).getLsbD k =
      (((op &&& 0xFC#8).setWidth 32 <<< 24).getLsbD k || (decide (k = 25) && n) || (decide (k = 24) && i) ||
        (decide (k = 23) && x) || (decide (k = 22) && b) || (decide (k = 21) && p) || (decide (k = 20) && e) ||
        (decide (k < 32) && a.getLsbD k)) := by
  simp only [pack4, BitVec.getLsbD_or, BitVec.getLsbD_setWidth]
  simp only [getLsbD_flagBit 32 25 k n (by omega), getLsbD_flagBit 32 24 k i (by omega),
    getLsbD_flagBit 32 23 k x (by omega), getLsbD_flagBit 32 22 k b (by omega),
    getLsbD_flagBit 32 21 k p (by omega), getLsbD_flagBit 32 20 k e (by omega)]

/-- The format of an encoded instruction is that of its Field Set. -/
@[simp] theorem word_format (f : FieldSet) : f.word.format = f.format := by
  unfold FieldSet.word FieldSet.format
  cases f.disp <;> rfl

/-- Masking the Nat of a format-3 word is masking the word. -/
theorem toNat_and_of_eq {w : Nat} (v : BitVec w) (mask m : Nat) (h1 : mask < 2 ^ w) (h2 : m < 2 ^ w)
    (h : v &&& BitVec.ofNat w mask = BitVec.ofNat w m) : v.toNat &&& mask = m := by
  have := congrArg BitVec.toNat h
  simpa [BitVec.toNat_and, BitVec.toNat_ofNat, Nat.mod_eq_of_lt h1, Nat.mod_eq_of_lt h2] using this

end Sys2Proof
end

