-- ==== Sys2Proof/Laws/PerInstr.lean ====
section
/-! SUPPORT. The family EncodeMatchesRow: an encoded instruction matches the row of its own case in the table of R54, one
lemma per constructor. -/

namespace Sys2Proof.Laws.EncodeMatchesRow

/-- The encoded word is in the row of its case. -/
def Statement (i : Instr) : Prop := ∀ r ∈ caseTable, r.case = i.decodeCase → r.matches (encode i) = true

/-- Reduces a format-3 constructor to the one row that can be its own. -/
theorem of_row {i : Instr} (row : CaseRow) (h : ∀ r ∈ caseTable, r.case = i.decodeCase → r = row)
    (hm : row.matches (encode i) = true) : Statement i := fun r hr hc => by rw [h r hr hc]; exact hm

/-- A format-3 word matches a format-3 row when its masked bits are the row's. -/
theorem matches_f3 (op : Opcode) (n i x b p e : Bool) (d : Disp) (c : DecodeCase) (mask m : Nat) (h1 : mask < 2 ^ 24)
    (h2 : m < 2 ^ 24)
    (h : ∀ k, k < 24 →
      ((pack3 op n i x b p e d).getLsbD k && (BitVec.ofNat 24 mask).getLsbD k) = (BitVec.ofNat 24 m).getLsbD k) :
    CaseRow.matches ⟨c, .f3, mask, m⟩ (.f3 (pack3 op n i x b p e d)) = true := by
  simp only [CaseRow.matches, RawWord.format, RawWord.toNat, beq_self_eq_true, Bool.true_and, beq_iff_eq]
  refine toNat_and_of_eq _ _ _ h1 h2 (BitVec.eq_of_getLsbD_eq fun k hk => ?_)
  rw [BitVec.getLsbD_and]
  exact h k hk

theorem f3Sic (op : Opcode) (x b p e : Bool) (d : Disp) : Statement (.f3Sic op x b p e d) := by
  refine of_row ⟨.f3Sic, .f3, 0x030000, 0x000000⟩ (by simp [caseTable, Instr.decodeCase]) ?_
  refine matches_f3 _ _ _ _ _ _ _ _ _ _ _ (by decide) (by decide) fun k hk => ?_
  rw [getLsbD_pack3]
  interval_cases k <;> simp [Instr.fields]

theorem f3SimplePc (op : Opcode) (x e : Bool) (d : Disp) : Statement (.f3SimplePc op x e d) := by
  refine of_row ⟨.f3SimplePc, .f3, 0x036000, 0x032000⟩ (by simp [caseTable, Instr.decodeCase]) ?_
  refine matches_f3 _ _ _ _ _ _ _ _ _ _ _ (by decide) (by decide) fun k hk => ?_
  rw [getLsbD_pack3]
  interval_cases k <;> simp [Instr.fields]

theorem f3SimpleBase (op : Opcode) (x e : Bool) (d : Disp) : Statement (.f3SimpleBase op x e d) := by
  refine of_row ⟨.f3SimpleBase, .f3, 0x036000, 0x034000⟩ (by simp [caseTable, Instr.decodeCase]) ?_
  refine matches_f3 _ _ _ _ _ _ _ _ _ _ _ (by decide) (by decide) fun k hk => ?_
  rw [getLsbD_pack3]
  interval_cases k <;> simp [Instr.fields]

theorem f3SimpleDirect (op : Opcode) (x e : Bool) (d : Disp) : Statement (.f3SimpleDirect op x e d) := by
  refine of_row ⟨.f3SimpleDirect, .f3, 0x036000, 0x030000⟩ (by simp [caseTable, Instr.decodeCase]) ?_
  refine matches_f3 _ _ _ _ _ _ _ _ _ _ _ (by decide) (by decide) fun k hk => ?_
  rw [getLsbD_pack3]
  interval_cases k <;> simp [Instr.fields]

theorem f3SimpleNorule (op : Opcode) (x e : Bool) (d : Disp) : Statement (.f3SimpleNorule op x e d) := by
  refine of_row ⟨.f3SimpleNorule, .f3, 0x036000, 0x036000⟩ (by simp [caseTable, Instr.decodeCase]) ?_
  refine matches_f3 _ _ _ _ _ _ _ _ _ _ _ (by decide) (by decide) fun k hk => ?_
  rw [getLsbD_pack3]
  interval_cases k <;> simp [Instr.fields]

theorem f3IndirectPc (op : Opcode) (x b e : Bool) (d : Disp) : Statement (.f3IndirectPc op x b e d) := by
  refine of_row ⟨.f3IndirectPc, .f3, 0x032000, 0x022000⟩ (by simp [caseTable, Instr.decodeCase]) ?_
  refine matches_f3 _ _ _ _ _ _ _ _ _ _ _ (by decide) (by decide) fun k hk => ?_
  rw [getLsbD_pack3]
  interval_cases k <;> simp [Instr.fields]

theorem f3IndirectNorule (op : Opcode) (x b e : Bool) (d : Disp) : Statement (.f3IndirectNorule op x b e d) := by
  refine of_row ⟨.f3IndirectNorule, .f3, 0x032000, 0x020000⟩ (by simp [caseTable, Instr.decodeCase]) ?_
  refine matches_f3 _ _ _ _ _ _ _ _ _ _ _ (by decide) (by decide) fun k hk => ?_
  rw [getLsbD_pack3]
  interval_cases k <;> simp [Instr.fields]

theorem f3Immediate (op : Opcode) (x b p e : Bool) (d : Disp) : Statement (.f3Immediate op x b p e d) := by
  refine of_row ⟨.f3Immediate, .f3, 0x030000, 0x010000⟩ (by simp [caseTable, Instr.decodeCase]) ?_
  refine matches_f3 _ _ _ _ _ _ _ _ _ _ _ (by decide) (by decide) fun k hk => ?_
  rw [getLsbD_pack3]
  interval_cases k <;> simp [Instr.fields]

theorem f4Addr (op : Opcode) (n i x b p e : Bool) (a : AddrField) : Statement (.f4Addr op n i x b p e a) := by
  refine of_row ⟨.f4Addr, .f4, 0x00000000, 0x00000000⟩ (by simp [caseTable, Instr.decodeCase]) ?_
  simp [CaseRow.matches, encode, Instr.fields, FieldSet.word, RawWord.format]

end Sys2Proof.Laws.EncodeMatchesRow
end

