-- ==== Sys2Proof/Laws/State.lean ====
section
/-! SUPPORT. One lemma per field per update of `State`. -/

namespace Sys2Proof.Machine

variable (s : State)

@[simp] theorem setOutput_hex (o : Option Result) : (s.setOutput o).hex = s.hex := rfl
@[simp] theorem setOutput_pcOvr (o : Option Result) : (s.setOutput o).pcOvr = s.pcOvr := rfl
@[simp] theorem setOutput_bOvr (o : Option Result) : (s.setOutput o).bOvr = s.bOvr := rfl
@[simp] theorem setOutput_xOvr (o : Option Result) : (s.setOutput o).xOvr = s.xOvr := rfl
@[simp] theorem setOutput_optab (o : Option Result) : (s.setOutput o).optab = s.optab := rfl
@[simp] theorem setOutput_memmap (o : Option Result) : (s.setOutput o).memmap = s.memmap := rfl
@[simp] theorem setOutput_f4Index (o : Option Result) : (s.setOutput o).f4Index = s.f4Index := rfl
@[simp] theorem setOutput_output (o : Option Result) : (s.setOutput o).output = o := rfl
@[simp] theorem setOutput_setOutput (o o' : Option Result) : (s.setOutput o).setOutput o' = s.setOutput o' := rfl
@[simp] theorem setOutput_regPc (o : Option Result) : (s.setOutput o).regPc = s.regPc := rfl
@[simp] theorem setOutput_regB (o : Option Result) : (s.setOutput o).regB = s.regB := rfl
@[simp] theorem setOutput_regX (o : Option Result) : (s.setOutput o).regX = s.regX := rfl

@[simp] theorem presentHex_hex (h : String) : (s.presentHex h).hex = some h := rfl
@[simp] theorem presentHex_pcOvr (h : String) : (s.presentHex h).pcOvr = s.pcOvr := rfl
@[simp] theorem presentHex_bOvr (h : String) : (s.presentHex h).bOvr = s.bOvr := rfl
@[simp] theorem presentHex_xOvr (h : String) : (s.presentHex h).xOvr = s.xOvr := rfl
@[simp] theorem presentHex_optab (h : String) : (s.presentHex h).optab = s.optab := rfl
@[simp] theorem presentHex_memmap (h : String) : (s.presentHex h).memmap = s.memmap := rfl
@[simp] theorem presentHex_f4Index (h : String) : (s.presentHex h).f4Index = s.f4Index := rfl
@[simp] theorem presentHex_output (h : String) : (s.presentHex h).output = s.output := rfl

@[simp] theorem present_hex (h : String) (p b x : Option Reg) : (s.present h p b x).hex = some h := rfl
@[simp] theorem present_pcOvr (h : String) (p b x : Option Reg) : (s.present h p b x).pcOvr = p := rfl
@[simp] theorem present_bOvr (h : String) (p b x : Option Reg) : (s.present h p b x).bOvr = b := rfl
@[simp] theorem present_xOvr (h : String) (p b x : Option Reg) : (s.present h p b x).xOvr = x := rfl
@[simp] theorem present_optab (h : String) (p b x : Option Reg) : (s.present h p b x).optab = s.optab := rfl
@[simp] theorem present_memmap (h : String) (p b x : Option Reg) : (s.present h p b x).memmap = s.memmap := rfl
@[simp] theorem present_f4Index (h : String) (p b x : Option Reg) : (s.present h p b x).f4Index = s.f4Index := rfl
@[simp] theorem present_output (h : String) (p b x : Option Reg) : (s.present h p b x).output = s.output := rfl

@[simp] theorem configure_hex (t : OpTab) (m : Memory) (q : Bool) : (s.configure t m q).hex = s.hex := rfl
@[simp] theorem configure_pcOvr (t : OpTab) (m : Memory) (q : Bool) : (s.configure t m q).pcOvr = s.pcOvr := rfl
@[simp] theorem configure_bOvr (t : OpTab) (m : Memory) (q : Bool) : (s.configure t m q).bOvr = s.bOvr := rfl
@[simp] theorem configure_xOvr (t : OpTab) (m : Memory) (q : Bool) : (s.configure t m q).xOvr = s.xOvr := rfl
@[simp] theorem configure_optab (t : OpTab) (m : Memory) (q : Bool) : (s.configure t m q).optab = t := rfl
@[simp] theorem configure_memmap (t : OpTab) (m : Memory) (q : Bool) : (s.configure t m q).memmap = m := rfl
@[simp] theorem configure_f4Index (t : OpTab) (m : Memory) (q : Bool) : (s.configure t m q).f4Index = q := rfl
@[simp] theorem configure_output (t : OpTab) (m : Memory) (q : Bool) : (s.configure t m q).output = s.output := rfl

end Sys2Proof.Machine
end

