-- ==== Sys2Proof/Laws/Step.lean ====
section
/-! SUPPORT. What each shared operation and the step can do, said once, for the proofs to cite. -/

namespace Sys2Proof.Machine

/-- `ta_base` of an instruction, by case (R80): what its meaning hands to `finish`. -/
def taBaseOf (i : Instr) (s : State) : Option Int :=
  match i with
  | .f3Sic _ _ b p e d => some (sicAddress b p e d)
  | .f3SimplePc _ _ _ d => some (pcRelative s d)
  | .f3SimpleBase _ _ _ d => some (baseRelative s d)
  | .f3SimpleDirect _ _ _ d => some (directAddress d)
  | .f3SimpleNorule .. => none
  | .f3IndirectPc _ _ _ _ d => some (indirectTarget s d)
  | .f3IndirectNorule .. => none
  | .f3Immediate _ _ _ _ _ d => some (immediateOperand d)
  | .f4Addr _ _ _ _ _ _ _ a => some (extendedAddress a)

/-- Every meaning is the shared back end on the instruction's fields and its `ta_base`. -/
theorem exec_eq_finish (i : Instr) (s : State) : exec i s = finish i.fields (taBaseOf i s) s := by
  cases i <;> rfl

/-- The back end always answers a next state: the record on the output port. -/
theorem finish_eq (f : FieldSet) (ta : Option Int) (s : State) :
    finish f ta s = .next (s.setOutput (some (.record (assemble f ta s)))) := rfl

/-- What `finish` can do. -/
theorem finish_next {f : FieldSet} {ta : Option Int} {s t : State} (h : finish f ta s = .next t) :
    t = s.setOutput (some (.record (assemble f ta s))) := by
  simpa [finish_eq] using h.symm

/-- What raising a parser error can do. -/
theorem raiseError_next {err : ParseError} {s t : State} (h : raiseError err s = .next t) :
    t = s.setOutput (some (.error err)) := by
  simpa [raiseError] using h.symm

/-- What an idle step can do. -/
theorem idle_next {s t : State} (h : idle s = .next t) : t = s.setOutput none := by
  simpa [idle] using h.symm

/-- What executing an instruction can do. -/
theorem exec_next {i : Instr} {s t : State} (h : exec i s = .next t) :
    t = s.setOutput (some (.record (assemble i.fields (taBaseOf i s) s))) :=
  finish_next (exec_eq_finish i s ▸ h)

/-- What a step can do: idle, an error, or the meaning of the decoded instruction. -/
theorem step_next {s t : State} (h : step s = .next t) :
    (s.hex = none ∧ t = s.setOutput none) ∨
    (∃ hex err, s.hex = some hex ∧ decodeHex hex = .error err ∧ t = s.setOutput (some (.error err))) ∨
    (∃ hex i, s.hex = some hex ∧ decodeHex hex = .ok i ∧
      t = s.setOutput (some (.record (assemble i.fields (taBaseOf i s) s)))) := by
  unfold step at h
  split at h
  · rename_i hh
    exact .inl ⟨hh, idle_next h⟩
  · rename_i hex hh
    split at h
    · rename_i err he
      exact .inr (.inl ⟨hex, err, hh, he, raiseError_next h⟩)
    · rename_i i hi
      exact .inr (.inr ⟨hex, i, hh, hi, exec_next h⟩)

/-- Where the back end's target is absent: only where `ta_base` is (R81). -/
@[simp] theorem indexTarget_none (s : State) (fmt : Format) (x : Bool) : indexTarget s fmt x none = none := rfl

/-- The index adder on a computed `ta_base` (R92). -/
theorem indexTarget_some (s : State) (fmt : Format) (x : Bool) (t : Int) :
    indexTarget s fmt x (some t) = some (t + if indexes s fmt x then (s.regX.toNat : Int) else 0) := by
  simp only [indexTarget]
  split <;> simp

/-- The value lookup is a read at the target (R97, R98). -/
theorem valueRead_eq (m : Memory) (target : Option Int) : valueRead m target = target.bind (memRead m) := by
  cases target <;> rfl

/-- An absent pointer reads as 0 (R31). -/
theorem pointerRead_of_none {m : Memory} {ptr : Int} (h : memRead m ptr = none) : pointerRead m ptr = 0#24 := by
  simp [pointerRead, h]

/-- A present pointer reads as its value (R87). -/
theorem pointerRead_of_some {m : Memory} {ptr : Int} {v : MemVal} (h : memRead m ptr = some v) :
    pointerRead m ptr = v := by
  simp [pointerRead, h]

end Sys2Proof.Machine
end

