-- ==== Sys2Proof/Laws/Tables.lean ====
section
/-! SUPPORT. What a table reads as after the host added an entry (R22), and that adding keeps the canonical form. -/

namespace Sys2Proof.Machine

/-- A table in which `k` was defined reads as the new value at `k` and as before at every other key (R17, R27). -/
theorem tableGet_tableDefine {κ ν : Type} [DecidableEq κ] (rank : κ → Int) (inj : Function.Injective rank)
    (t : List (κ × ν)) (k j : κ) (v : ν) :
    tableGet (tableDefine rank t k v) j = if k = j then some v else tableGet t j := by
  fun_induction tableDefine rank t k v with
  | case1 | case2 => simp [tableGet]
  | case3 k' _ _ _ _ _ same => cases inj same; by_cases hj : k' = j <;> simp [tableGet, hj]
  | case4 k' _ _ k _ _ other ih =>
    have apart : k' ≠ k := fun e => other (congrArg rank e.symm)
    simp only [tableGet, ih]
    by_cases hj : k = j
    · subst hj; simp [apart]
    · simp [hj]

/-- A check that the old entries and the new one pass is one that the table with the new entry passes. -/
theorem all_tableDefine {κ ν : Type} (rank : κ → Int) (check : κ × ν → Bool) (t : List (κ × ν)) (k : κ) (v : ν)
    (new : check (k, v) = true) (old : t.all check = true) : (tableDefine rank t k v).all check = true := by
  fun_induction tableDefine rank t k v <;> simp_all

/-- The first key of a canonical table is below all others, and the rest is canonical. -/
theorem tableSorted_cons {κ ν : Type} (rank : κ → Int) (k : κ) (v : ν) (t : List (κ × ν)) :
    tableSorted rank ((k, v) :: t) = (t.all (rank k < rank ·.1) && tableSorted rank t) := rfl

/-- Adding an entry keeps the keys strictly rising. -/
theorem tableSorted_tableDefine {κ ν : Type} (rank : κ → Int) (t : List (κ × ν)) (k : κ) (v : ν)
    (sorted : tableSorted rank t = true) : tableSorted rank (tableDefine rank t k v) = true := by
  fun_induction tableDefine rank t k v with
  | case1 => rfl
  | case2 k' v' t k v below =>
    have above : t.all (rank k < rank ·.1) = true :=
      List.all_eq_true.2 fun q hq => by
        have := List.all_eq_true.1 (Bool.and_eq_true_iff.1 sorted).1 q hq
        simp only [decide_eq_true_eq] at this ⊢
        omega
    rw [tableSorted_cons, sorted, List.all_cons, above]
    simp [below]
  | case3 _ _ _ _ _ _ same => simpa [tableSorted_cons, same] using sorted
  | case4 k' v' t k v notBelow notSame ih =>
    obtain ⟨first, rest⟩ := Bool.and_eq_true_iff.1 sorted
    rw [tableSorted_cons, ih rest, all_tableDefine rank _ t k v (by simp; omega) first]
    rfl

/-- Memory-map keys are integers, each of its own rank. -/
theorem memory_rank_injective : Function.Injective Memory.rank := fun _ _ same => same

/-- Adding an entry to a memory map keeps its canonical form. -/
theorem memory_define_wf (m : Memory) (a : Int) (v : MemVal) (h : m.wf = true) : (m.define a v).wf = true :=
  tableSorted_tableDefine _ m a v h

/-- Reading the key just defined. -/
@[simp] theorem memRead_define_same (m : Memory) (a : Int) (v : MemVal) : memRead (m.define a v) a = some v :=
  (tableGet_tableDefine _ memory_rank_injective m a a v).trans (if_pos rfl)

/-- Keys are independent whatever their distance (R26). -/
theorem memRead_define_other (m : Memory) (a b : Int) (v : MemVal) (h : b ≠ a) :
    memRead (m.define a v) b = memRead m b :=
  (tableGet_tableDefine _ memory_rank_injective m a b v).trans (if_neg h.symm)

/-- Adding an entry under an opcode byte keeps the opcode table's canonical form. -/
theorem opTab_define_wf (t : OpTab) (op : Opcode) (name : String) (hop : op &&& 0x03#8 = 0#8) (h : t.wf = true) :
    (t.define op name).wf = true := by
  obtain ⟨sorted, keys⟩ := Bool.and_eq_true_iff.1 h
  exact Bool.and_eq_true_iff.2
    ⟨tableSorted_tableDefine _ t op name sorted, all_tableDefine _ _ t op name (by simp [hop]) keys⟩

/-- The memory map after reset is in canonical form. -/
theorem reset_memmap_wf : State.reset.memmap.wf = true := rfl

/-- The opcode table after reset is in canonical form. -/
theorem reset_optab_wf : State.reset.optab.wf = true := rfl

/-- The host that supplies a map in canonical form leaves one in the state. -/
theorem configure_memmap_wf (s : State) (t : OpTab) (m : Memory) (q : Bool) (h : m.wf = true) :
    (s.configure t m q).memmap.wf = true := h

end Sys2Proof.Machine
end

