-- ==== Sys2Proof/Tests/Slice0.lean ====
section
/-! SUPPORT. The model's own tests. Expected results are those of spec/95_test_vectors.md (the vector is named beside each)
or are worked out by hand from the rule named. Then a witness for the hypotheses of each statement that has some. -/

namespace Sys2Proof.Tests

open Sys2Proof.Machine

/-! ### Helpers: the tables of test configuration T0, and what a small test looks at -/

/-- `OPTAB` of T0. -/
def t0Optab : OpTab := [(0x00#8, "LDA")]

/-- `MEMMAP` of T0. -/
def t0Memmap : Memory := [(0x3030, 0x003600#24), (0x3600, 0x103000#24), (0x6390, 0x00C303#24), (0xC303, 0x003030#24)]

/-- The block with the tables of T0, before any request. -/
def t0 : State := State.reset.configure t0Optab t0Memmap Config.f4IndexDecided

/-- The record one step from a state leaves, if it leaves one. -/
def recordAfter (s : State) : Option Record :=
  match step s with
  | .next t =>
    match t.output with
    | some (.record r) => some r
    | _ => none
  | _ => none

/-- The result one step from a state leaves. -/
def resultAfter (s : State) : Option Result :=
  match step s with
  | .next t => t.output
  | _ => none

/-- Target and value of the record. -/
def targetValue (s : State) : Option (Option Int × Option MemVal) :=
  (recordAfter s).map fun r => (r.target, r.value)

/-- Label and machine class of the record. -/
def labelClass (s : State) : Option (String × String) :=
  (recordAfter s).map fun r => (r.modeLabel, r.machineClass.text)

/-! ### WellFormed: the one check, and an ill-formed term that it refuses -/

theorem test_wf_refuses_low_opcode_bits : (Instr.f3SimplePc 0x01#8 false false 0x600#12).wf = false := by decide
theorem test_wf_refuses_low_opcode_bit1_format4 :
    (Instr.f4Addr 0x02#8 true true false false false true 0x0C303#20).wf = false := by decide
theorem test_wf_accepts_opcode_byte : (Instr.f3SimplePc 0xA8#8 false false 0x600#12).wf = true := by decide

/-! ### Decoding: words written bit by bit from the patterns of R54 -/

/-- `000000 00 0 1 1 1 111111111111` (T-SIC-3). -/
theorem test_decode_f3Sic :
    decodeRaw (.f3 0b000000000111111111111111#24) = .f3Sic 0x00#8 false true true true 0xFFF#12 := by decide
/-- `000110 11 0 0 1 0 011000000000` (T-OP-1). -/
theorem test_decode_f3SimplePc :
    decodeRaw (.f3 0b000110110010011000000000#24) = .f3SimplePc 0x18#8 false false 0x600#12 := by decide
/-- `101010 11 1 1 0 0 110111101111` (G-10). -/
theorem test_decode_f3SimpleBase :
    decodeRaw (.f3 0b101010111100110111101111#24) = .f3SimpleBase 0xA8#8 true false 0xDEF#12 := by decide
/-- `000000 11 0 0 0 1 000000110000` (T-D-4). -/
theorem test_decode_f3SimpleDirect :
    decodeRaw (.f3 0b000000110001000000110000#24) = .f3SimpleDirect 0x00#8 false true 0x030#12 := by decide
/-- `111111 11 1 1 1 1 111111111111` (G-12). -/
theorem test_decode_f3SimpleNorule :
    decodeRaw (.f3 0b111111111111111111111111#24) = .f3SimpleNorule 0xFC#8 true true 0xFFF#12 := by decide
/-- `000000 10 0 1 1 0 000000110000` (T-I-2). -/
theorem test_decode_f3IndirectPc :
    decodeRaw (.f3 0b000000100110000000110000#24) = .f3IndirectPc 0x00#8 false true false 0x030#12 := by decide
/-- `000000 10 0 1 0 0 000000110000` (T-INR-2). -/
theorem test_decode_f3IndirectNorule :
    decodeRaw (.f3 0b000000100100000000110000#24) = .f3IndirectNorule 0x00#8 false true false 0x030#12 := by decide
/-- `000000 01 0 1 1 0 000000110000` (T-IM-6). -/
theorem test_decode_f3Immediate :
    decodeRaw (.f3 0b000000010110000000110000#24) = .f3Immediate 0x00#8 false true true false 0x030#12 := by decide
/-- `000100 1 0 0 0 1 1 01000101011001111000` (G-13). -/
theorem test_decode_f4Addr :
    decodeRaw (.f4 0b00010010001101000101011001111000#32) =
      .f4Addr 0x10#8 true false false false true true 0x45678#20 := by decide
theorem test_encode_f3SimpleBase : encode (.f3SimpleBase 0xA8#8 true false 0xDEF#12) = .f3 0xABCDEF#24 := by decide
theorem test_encode_f4Addr :
    encode (.f4Addr 0x10#8 true false false false true true 0x45678#20) = .f4 0x12345678#32 := by decide
theorem test_decodeTableWord_f3 : decodeTableWord 24 0x020030 = some (.f3IndirectNorule 0x00#8 false false false 0x030#12) := by
  decide
theorem test_decodeTableWord_f4 :
    decodeTableWord 32 0x0310C303 = some (.f4Addr 0x00#8 true true false false false true 0x0C303#20) := by decide
theorem test_decodeTableWord_refuses_40_bits : decodeTableWord 40 0 = none := by decide

/-! ### Meanings, at most two tests each -/

/-- T-SIC-5: the index is not masked to 15 bits. -/
theorem test_f3Sic_indexed : targetValue (t0.presentHex "00FFFF") = some (some 0x00808F, none) := by decide
/-- T-SIC-2. -/
theorem test_f3Sic_label : labelClass (t0.presentHex "003600") = some ("SIC format, PC-relative", "SIC") := by decide
/-- T-R-1: a negative target, not wrapped. -/
theorem test_f3SimplePc_negative : targetValue (t0.present "032FFF" (some 0#24) none none) = some (some (-1), none) := by
  decide
/-- T-R-4: the largest target. -/
theorem test_f3SimplePc_largest :
    targetValue (t0.present "03A7FF" (some 0xFFFFFF#24) none (some 0xFFFFFF#24)) = some (some 0x20007FD, none) := by
  decide
/-- T-B-2: base-relative is signed. -/
theorem test_f3SimpleBase_signed : targetValue (t0.presentHex "034FFF") = some (some 0x005FFF, none) := by decide
/-- T-B-3. -/
theorem test_f3SimpleBase_indexed : targetValue (t0.presentHex "03C300") = some (some 0x006390, some 0x00C303#24) := by
  decide
/-- T-D-2: direct is unsigned. -/
theorem test_f3SimpleDirect_unsigned : targetValue (t0.presentHex "030FFF") = some (some 0x000FFF, none) := by decide
/-- T-NR-2: nothing is indexed. -/
theorem test_f3SimpleNorule : targetValue (t0.presentHex "03E600") = some (none, none) := by decide
/-- T-I-3: the index is added after the pointer read. -/
theorem test_f3IndirectPc_indexed : targetValue (t0.presentHex "02A030") = some (some 0x003690, none) := by decide
/-- T-I-4: a pointer that is no key gives 0. -/
theorem test_f3IndirectPc_absent : targetValue (t0.presentHex "022FFF") = some (some 0, none) := by decide
/-- T-INR-2. -/
theorem test_f3IndirectNorule :
    (recordAfter (t0.presentHex "024030")).map (fun r => (r.target, r.status)) =
      some (none, .ambiguousAddressingMode) := by decide
/-- T-IM-3: never sign-extended. -/
theorem test_f3Immediate_unsigned : targetValue (t0.presentHex "010800") = some (some 0x000800, none) := by decide
/-- T-IM-6: b and p are not consulted. -/
theorem test_f3Immediate_ignores_b_p : targetValue (t0.presentHex "016030") = some (some 0x000030, none) := by decide
/-- T-F4-4: no index in format 4, though the label says so. -/
theorem test_f4Addr_not_indexed : targetValue (t0.presentHex "0390C303") = some (some 0x00C303, some 0x003030#24) := by
  decide
/-- T-F4-4 under the other reading of `F4_INDEX` (the note below section 3.3). -/
theorem test_f4Addr_indexed_when_configured :
    targetValue ((t0.configure t0Optab t0Memmap true).presentHex "0390C303") = some (some 0x00C393, none) := by decide

/-! ### Record, errors, tables -/

/-- E14: lower case, an unknown opcode. -/
theorem test_unknown_mnemonic :
    (recordAfter (t0.presentHex "abcdef")).map (fun r => (r.opcode, r.mnemonic, r.nixbpe, r.dispSigned)) =
      some (0xA8#8, "UNKNOWN", "111100", -529) := by decide
/-- X-6. -/
theorem test_renderings :
    (recordAfter (t0.presentHex "0310C303")).map (fun r => (r.rawBin, r.dispBin, r.dispHex)) =
      some ("0000 0011 0001 0000 1100 0011 0000 0011", "0000 1100 0011 0000 0011", "0C303") := by decide
/-- R61, R62: the characters next to the three runs are no digits. -/
theorem test_digit_runs_end_where_R61_says :
    ['/', ':', '@', 'G', '`', 'g', '9', 'F', 'f', 'a'].map digitValue =
      [none, none, none, none, none, none, some 9, some 15, some 15, some 10] := by decide
/-- E1. -/
theorem test_empty_string : resultAfter (t0.presentHex "") = some (.error (.unsupportedLength 0)) := by decide
/-- E12: length first. -/
theorem test_length_before_digits : resultAfter (t0.presentHex "ZZZZZZZ") = some (.error (.unsupportedLength 7)) := by
  decide
/-- E7. -/
theorem test_prefix_is_invalid : resultAfter (t0.presentHex "0x3260") = some (.error .invalidHexInput) := by decide
/-- T-M-9: a negative key is reachable. -/
theorem test_negative_key :
    targetValue ((t0.configure t0Optab [(-1, 0x123456#24)] false).present "032FFF" (some 0#24) none none) =
      some (some (-1), some 0x123456#24) := by decide
/-- T-M-7: a stored 0 is a value. -/
theorem test_stored_zero_is_a_value :
    targetValue ((t0.configure t0Optab [(0x3600, 0#24)] false).presentHex "032600") = some (some 0x3600, some 0#24) := by
  decide
/-- R106: the codes of the two endings with a record. -/
theorem test_err_codes :
    ((resultAfter (t0.presentHex "036600")).map Result.err, (resultAfter (t0.presentHex "032600")).map Result.err) =
      (some 3#2, some 0#2) := by decide
/-- The host's table in canonical form, whatever the order of the entries. -/
theorem test_define_sorts :
    ((Memory.define [] 0x3600 0x103000#24).define 0x3030 0x003600#24) = [(0x3030, 0x003600#24), (0x3600, 0x103000#24)] := by
  decide
theorem test_t0_tables_wf : (t0.memmap.wf, t0.optab.wf) = (true, true) := by decide
theorem test_duplicate_key_is_not_wf : Memory.wf [(5, 1#24), (5, 2#24)] = false := by decide
theorem test_optab_key_low_bits_not_wf : OpTab.wf [(0x01#8, "LDA")] = false := by decide
/-- P2, requests 2 and 3: an override does not persist. -/
theorem test_override_does_not_persist :
    (((t0.present "03A600" (some 0x001000#24) none (some 0x000010#24)).present "03A600" none none (some 0#24)).regPc,
      ((t0.present "03A600" (some 0x001000#24) none none)).regPc) = (0x003000#24, 0x001000#24) := by decide

/-! ### Witnesses: states and operands that meet the hypotheses of the statements -/

theorem witness_StepRunsDecodedInstruction :
    (t0.presentHex "032600").hex = some "032600" ∧ decodeHex "032600" = .ok (.f3SimplePc 0x00#8 false false 0x600#12) :=
  ⟨rfl, by decide⟩
theorem witness_NoRequestGivesNoOutput : t0.hex = none := rfl
theorem witness_PlacedTableWordIsRunByTheStep :
    decodeTableWord 24 0x036000 = some (.f3SimpleNorule 0x00#8 false false 0x000#12) := by decide
theorem witness_HexOfEncodedInstructionDecodesBack :
    (Instr.f4Addr 0xFC#8 true true true true true true 0xFFFFF#20).wf = true := by decide
theorem witness_EveryWordIsInExactlyOneCase :
    ∃ r ∈ caseTable, r.matches (.f3 0x022000#24) = true := ⟨⟨.f3IndirectPc, .f3, 0x032000, 0x022000⟩, by decide, by decide⟩
theorem witness_FormatComesFromTheDigitCount :
    parse "000000" = .ok (.f3 0#24) ∧ parse "FFFFFFFF" = .ok (.f4 0xFFFFFFFF#32) ∧
      "0000000".length ≠ 6 ∧ "0000000".length ≠ 8 := by decide
theorem witness_FormatComesFromTheDigitCount_digits :
    (∀ c ∈ "09AFaf".toList, c ∈ "0123456789ABCDEFabcdef".toList) ∧ "09AFaf".length = 6 ∧
      (∀ c ∈ "fa9009AF".toList, c ∈ "0123456789ABCDEFabcdef".toList) ∧ "fa9009AF".length = 8 :=
  ⟨by simp, rfl, by simp, rfl⟩
theorem witness_ParsedWordIsTheHexNumeral :
    ("00000F".length = 6 ∧ ∀ c ∈ "00000F".toList, c ∈ "0123456789ABCDEF".toList) ∧
      ("F0000000".length = 8 ∧ ∀ c ∈ "F0000000".toList, c ∈ "0123456789ABCDEF".toList) :=
  ⟨⟨by decide, by simp⟩, ⟨by decide, by simp⟩⟩
theorem witness_OtherLengthsAreUnsupported :
    (t0.presentHex "03260").hex = some "03260" ∧ "03260".length ≠ 6 ∧ "03260".length ≠ 8 := ⟨rfl, by decide, by decide⟩
theorem witness_NonDigitsAreInvalidHexInput :
    (t0.presentHex "03260G").hex = some "03260G" ∧ ("03260G".length = 6 ∨ "03260G".length = 8) ∧
      'G' ∈ "03260G".toList ∧ 'G' ∉ "0123456789ABCDEFabcdef".toList := ⟨rfl, by decide, by decide, by decide⟩
theorem witness_Format4TargetIsTheAddressField :
    t0.f4Index = false ∧ (t0.configure [] [] true).f4Index = true := by decide
theorem witness_MnemonicIsTheTableEntryOrUnknown :
    t0.optab.wf = true ∧ ((Instr.f3SimpleDirect 0x00#8 false false 0#12).opcode, "LDA") ∈ t0.optab ∧
      ∀ q ∈ t0.optab, q.1 ≠ (Instr.f3SimpleDirect 0x04#8 false false 0#12).opcode := by decide
theorem witness_SignedDisplacementIsTwosComplement :
    (recordAfter (t0.presentHex "032800")).map (·.dispRaw) = some (.disp 0x800#12) ∧
      (recordAfter (t0.presentHex "031FFFFF")).map (·.dispRaw) = some (.addr 0xFFFFF#20) := by decide
theorem witness_ModeLabelTellsTheBitsItShows :
    ∃ r q, exec (.f3SimplePc 0x00#8 false false 0x600#12) t0 = .next { t0 with output := some (.record r) } ∧
      exec (.f3SimplePc 0x04#8 false true 0x601#12) t0 = .next { t0 with output := some (.record q) } ∧
      r.format = q.format ∧ r.modeLabel = q.modeLabel := ⟨_, _, rfl, rfl, rfl, by decide⟩
theorem witness_ModeLabelTellsTheBitsItShows_format4 :
    ∃ r q, exec (.f4Addr 0x00#8 true true true false false true 0#20) t0 = .next { t0 with output := some (.record r) } ∧
      exec (.f4Addr 0x00#8 true true true true true true 1#20) t0 = .next { t0 with output := some (.record q) } ∧
      r.format = .f4 ∧ r.format = q.format ∧ r.modeLabel = q.modeLabel := ⟨_, _, rfl, rfl, rfl, rfl, by decide⟩
theorem witness_FieldRenderingsReadBack :
    (recordAfter (t0.presentHex "032600")).map (fun r => (r.raw, r.dispRaw)) = some (.f3 0x032600#24, .disp 0x600#12) ∧
      (recordAfter (t0.presentHex "0310C303")).map (fun r => (r.raw, r.dispRaw)) =
        some (.f4 0x0310C303#32, .addr 0x0C303#20) := by decide
theorem witness_ReportLinesStandInTheFixedOrder :
    (recordAfter (t0.presentHex "032600")).map (·.value) = some (some 0x103000#24) ∧
      (recordAfter (t0.presentHex "000600")).map (·.value) = some none := by decide
theorem witness_MemoryReadIsTheEntryOfItsKey :
    t0.memmap.wf = true ∧ (0x6390, 0x00C303#24) ∈ t0.memmap ∧ ∀ q ∈ t0.memmap, q.1 ≠ (-1 : Int) := by decide
theorem witness_ValueIsTheEntryAtTheFinalTarget :
    t0.memmap.wf = true ∧ (∃ r, exec (.f3SimplePc 0x00#8 false false 0x600#12) t0 = .next { t0 with output := some (.record r) } ∧
      r.target = some 0x3600 ∧ (0x3600, 0x103000#24) ∈ t0.memmap) ∧
      (∃ r, exec (.f3Immediate 0x00#8 false false false false 0x030#12) t0 = .next { t0 with output := some (.record r) } ∧
      r.target = some 0x30 ∧ ∀ q ∈ t0.memmap, q.1 ≠ (0x30 : Int)) ∧
      (∃ r, exec (.f3SimpleNorule 0x00#8 false false 0x600#12) t0 = .next { t0 with output := some (.record r) } ∧
      r.target = none) :=
  ⟨by decide, ⟨_, rfl, rfl, by decide⟩, ⟨_, rfl, rfl, by decide⟩, ⟨_, rfl, rfl⟩⟩
theorem witness_AbsentKeysReadAsZeroOrAsNothing :
    (∀ q ∈ t0.memmap, q.1 ≠ ((t0.pcOvr.getD 0x003000#24).toNat : Int) + (0xFFF#12).toInt) ∧
      (∃ r, exec (.f3Sic 0x00#8 false false false false 0x600#12) t0 = .next { t0 with output := some (.record r) } ∧
      r.target = some 0x600 ∧ ∀ q ∈ t0.memmap, q.1 ≠ (0x600 : Int)) := ⟨by decide, ⟨_, rfl, rfl, by decide⟩⟩
theorem witness_EmptyTablesAreNoError :
    State.reset.optab = [] ∧ State.reset.memmap = [] ∧
      (Instr.f3IndirectPc 0x00#8 true false false 0x030#12).decodeCase = .f3IndirectPc := ⟨rfl, rfl, rfl⟩
theorem witness_IndexBitAddsXToEveryFormat3Target :
    (0x000600#24).getLsbD 15 = false ∧ t0.f4Index = false := by decide
theorem witness_TargetsFitIn27BitsTwosComplement :
    (recordAfter (t0.present "032800" (some 0#24) none none)).map (·.target) = some (some (-2048)) := by decide
theorem witness_UnreadRegistersDoNotMatter :
    (Instr.f3SimpleBase 0x00#8 false false 0#12).decodeCase ≠ .f3SimplePc ∧
      (Instr.f3SimpleBase 0x00#8 false false 0#12).decodeCase ≠ .f3IndirectPc ∧
      (Instr.f3SimplePc 0x00#8 false false 0#12).decodeCase ≠ .f3SimpleBase ∧
      (Instr.f3SimplePc 0x00#8 false false 0#12).x = false := by decide
theorem witness_UnreadRegistersDoNotMatter_x_set :
    (∃ r, exec (.f3IndirectNorule 0x00#8 true false false 0#12) t0 = .next { t0 with output := some (.record r) } ∧
      r.target = none) ∧
    (∃ r, exec (.f4Addr 0x00#8 true true true false false true 0#20) t0 = .next { t0 with output := some (.record r) } ∧
      r.format = .f4 ∧ t0.f4Index = false) := ⟨⟨_, rfl, rfl⟩, ⟨_, rfl, rfl, rfl⟩⟩
theorem witness_EBitChangesNothingOutsideSicFormat :
    ((0x032600#24).getLsbD 17 = true ∧ (0x032600#24).getLsbD 12 = false) ∧
      ((0x010030#24).getLsbD 16 = true ∧ (0x010030#24).getLsbD 12 = false) := by decide
theorem witness_StepWritesOnlyTheOutput : ∃ t, step (t0.presentHex "032600") = .next t := ⟨_, rfl⟩
theorem witness_InstructionWritesOnlyTheOutput :
    ∃ t, exec (.f3IndirectPc 0x00#8 false false false 0x030#12) t0 = .next t := ⟨_, rfl⟩
theorem witness_RepeatedDecodeGivesTheSameResult : ∃ t, step (t0.presentHex "03260G") = .next t := ⟨_, rfl⟩
theorem witness_ErrorCodeNamesTheEnding :
    (resultAfter (t0.presentHex "032600")).map Result.ending = some .computed ∧
      (resultAfter (t0.presentHex "03260")).map Result.ending = some .unsupportedLength ∧
      (resultAfter (t0.presentHex "03260G")).map Result.ending = some .invalidHexInput ∧
      (resultAfter (t0.presentHex "020030")).map Result.ending = some .ambiguousAddressingMode := by decide
theorem witness_StepComputesTheComposedDecode : (t0.presentHex "0310C303").hex = some "0310C303" := rfl
theorem witness_StepKeepsStateConsistent : (t0.presentHex "022030").Inv ∧ ∃ t, step (t0.presentHex "022030") = .next t :=
  ⟨⟨by decide, by decide, True.intro⟩, ⟨_, rfl⟩⟩

end Sys2Proof.Tests
end

section
/-! SUPPORT. The two extractions agree: the bit-vector fields of R63 and R64, the integer fields of R44 and R46, and the
fields that the decoded instruction carries. -/

namespace Sys2Proof

/-- A bit of a word is the bit of its number (R7). -/
theorem natBit_toNat {w : Nat} (v : BitVec w) (k : Nat) : Machine.natBit v.toNat k = v.getLsbD k := by
  rw [Machine.natBit, ← BitVec.testBit_toNat, Nat.testBit_eq_decide_div_mod_eq]
  rfl

/-- The low field of a word, from its number (R63, R64). -/
theorem ofNat_toNat_mod_two_pow {w : Nat} (v : BitVec w) (k : Nat) :
    BitVec.ofNat k (v.toNat % 2 ^ k) = v.extractLsb' 0 k :=
  BitVec.eq_of_toNat_eq (by simp)

/-- The masked opcode byte of a word, from its number (R46). -/
theorem ofNat_toNat_shiftRight_and {w : Nat} (v : BitVec w) (k : Nat) :
    BitVec.ofNat 8 ((v.toNat >>> k) &&& 0xFC) = (v >>> k).setWidth 8 &&& 0xFC#8 :=
  BitVec.eq_of_toNat_eq (by simp [BitVec.toNat_and])

/-- The composition extracts the Field Set of the extractor. -/
theorem composedFields_eq_extract (w : RawWord) : Machine.composedFields w = extract w := by
  cases w <;>
    simp only [Machine.composedFields, extract, extract3, extract4, RawWord.toNat, RawWord.format, Format.width,
      natBit_toNat, ofNat_toNat_shiftRight_and, ofNat_toNat_mod_two_pow, Nat.reduceSub, -Nat.reducePow]

/-- The decoded instruction carries the extracted Field Set, whichever case the flags select. -/
theorem fields_decodeRaw (w : RawWord) : (decodeRaw w).fields = extract w := by
  cases w with
  | f3 w =>
    rcases hf : extract3 w with ⟨op, n, i, x, b, p, e, field⟩
    obtain rfl : .disp (w.extractLsb' 0 12) = field := congrArg FieldSet.disp hf
    simp only [decodeRaw, decodeWord3, extract, hf]
    cases n <;> cases i
    case true.true => cases p <;> cases b <;> rfl
    case true.false => cases p <;> rfl
    all_goals rfl
  | f4 w => rfl

/-- The format of the Field Set is that of the word. -/
@[simp] theorem format_extract (w : RawWord) : (extract w).format = w.format := by
  cases w <;> rfl

/-- Packing the extracted Field Set gives the word back (R65). -/
@[simp] theorem word_extract (w : RawWord) : (extract w).word = w := by
  cases w with
  | f3 w =>
    refine congrArg RawWord.f3 (BitVec.eq_of_getLsbD_eq fun k hk => ?_)
    rw [getLsbD_pack3]
    interval_cases k <;> simp [extract, extract3]
  | f4 w =>
    refine congrArg RawWord.f4 (BitVec.eq_of_getLsbD_eq fun k hk => ?_)
    rw [getLsbD_pack4]
    interval_cases k <;> simp [extract, extract4]

end Sys2Proof
end

section
/-! SUPPORT. The composition of R99 is what a step computes: its signing, select, formulas, index adder and record, one
lemma for each, then the whole decode. -/

namespace Sys2Proof.Machine

/-- The low `W - 12` bits of a word are its displacement or address field (R63, R64). -/
theorem dispNat_extract (w : RawWord) : dispNat (extract w).disp = w.toNat % 2 ^ (w.format.width - 12) := by
  cases w <;> simp [extract, extract3, extract4, dispNat, RawWord.toNat, RawWord.format, Format.width]

/-- Both tests of the sign of a displacement agree (R67). -/
theorem signedDisp_eq (d : Disp) :
    signedDisp d = if d.toNat ≥ 0x800 then (d.toNat : Int) - 0x1000 else (d.toNat : Int) := by
  have sign : d &&& 0x800#12 = 0#12 ↔ ¬ d.toNat ≥ 0x800 := by
    rw [show 0x800#12 = BitVec.twoPow 12 11 from rfl, BitVec.and_twoPow,
      show d.getLsbD 11 = decide (0x800 ≤ d.toNat) from BitVec.msb_eq_decide d]
    by_cases h : 0x800 ≤ d.toNat <;> simp [h]
  simp only [signedDisp, sign, ite_not]

/-- Signing by the composition is signing by the block (R67, R68). -/
theorem composedSigning_dispNat (f : FieldSet) : composedSigning f.format (dispNat f.disp) = dispSigned f.disp := by
  unfold FieldSet.format
  cases f.disp with
  | disp d => exact (signedDisp_eq d).symm
  | addr a => rfl

/-- The nested conditions of R78 select the case of the instruction. -/
theorem composedSelect_fields (i : Instr) :
    composedSelect i.fields.format i.fields.n i.fields.i i.fields.b i.fields.p = i.decodeCase := by
  cases i <;> rfl

/-- A displacement that is not negative is its own unsigned reading, so that R89 gives the unsigned one always. -/
theorem immediateOperand_eq (d : Disp) : immediateOperand d = (d.toNat : Int) := by
  simp only [immediateOperand, signedDisp_eq]
  split <;> omega

/-- Cutting to 15 bits is the mask of R82. -/
theorem sicAddress_eq (b p e : Bool) (d : Disp) :
    sicAddress b p e d =
      (((bitNat b * 2 ^ 14) ||| (bitNat p * 2 ^ 13) ||| (bitNat e * 2 ^ 12) ||| d.toNat) % 2 ^ 15 : Nat) := by
  rw [sicAddress, show 0x7FFF = 2 ^ 15 - 1 from rfl, Nat.and_two_pow_sub_one_eq_mod]
  simp only [Nat.shiftLeft_eq]

/-- The formula of R87 is the pointer read, an absent pointer's 0 included. -/
theorem composedFormula_f3IndirectPc (f : FieldSet) (raw : Nat) (signed : Int) (pc b : Nat) (m : Memory) :
    composedFormula .f3IndirectPc f raw signed pc b m = some ((pointerRead m (pc + signed)).toNat : Int) := by
  cases h : memRead m (pc + signed) with
  | none => simp [composedFormula, h, pointerRead_of_none h]
  | some v => simp [composedFormula, h, pointerRead_of_some h]

/-- The formula of each case of R99 is the `ta_base` of the instruction. -/
theorem composedFormula_fields (i : Instr) (s : State) :
    composedFormula i.decodeCase i.fields (dispNat i.fields.disp) (dispSigned i.fields.disp) s.regPc.toNat
      s.regB.toNat s.memmap = taBaseOf i s := by
  cases i with
  | f3Sic op x b p e d => exact congrArg some (sicAddress_eq b p e d).symm
  | f3IndirectPc op x b e d => exact composedFormula_f3IndirectPc ..
  | f3Immediate op x b p e d => exact congrArg some (immediateOperand_eq d).symm
  | _ => rfl

/-- The index adder of R92 as one sum. -/
theorem indexTarget_eq_map (s : State) (fmt : Format) (x : Bool) (taBase : Option Int) :
    indexTarget s fmt x taBase =
      taBase.map (· + if x = true ∧ (fmt = .f3 ∨ s.f4Index = true) then (s.regX.toNat : Int) else 0) := by
  cases taBase with
  | none => rfl
  | some t => cases fmt <;> cases x <;> simp [indexTarget_some, indexes]

/-- `AmbiguousAddressingMode` exactly where there is no target (R109). -/
theorem statusOf_eq (target : Option Int) :
    statusOf target = if target = none then .ambiguousAddressingMode else .computed := by
  cases target <;> rfl

/-- `SIC` exactly for format 3 with n = i = 0 (R77). -/
theorem machineClass_eq (f : FieldSet) :
    machineClass f = if f.format = .f3 ∧ f.n = false ∧ f.i = false then .sic else .sicXe := by
  unfold machineClass
  cases f.format <;> cases f.n <;> cases f.i <;> rfl

/-- The composition's signed reading of a word's low field is the record's (R67, R68). -/
theorem composedSigning_word (w : RawWord) :
    composedSigning w.format (w.toNat % 2 ^ (w.format.width - 12)) = dispSigned (extract w).disp := by
  rw [← dispNat_extract, ← format_extract, composedSigning_dispNat]

/-- The composition's `ta_base` of a word is that of the decoded instruction (R80). -/
theorem composedFormula_word (w : RawWord) (s : State) :
    composedFormula (composedSelect w.format (extract w).n (extract w).i (extract w).b (extract w).p) (extract w)
      (w.toNat % 2 ^ (w.format.width - 12)) (dispSigned (extract w).disp) s.regPc.toNat s.regB.toNat s.memmap =
        taBaseOf (decodeRaw w) s := by
  rw [← composedFormula_fields, ← composedSelect_fields, fields_decodeRaw, format_extract, dispNat_extract]

/-- A word that parses: the composition's record is the one that the block assembles (R99). -/
theorem composedDecode_of_parse_ok {hex : String} {w : RawWord} (s : State) (h : parse hex = .ok w) :
    composedDecode hex s.pcOvr s.bOvr s.xOvr s.optab s.memmap s.f4Index =
      .record (assemble (decodeRaw w).fields (taBaseOf (decodeRaw w) s) s) := by
  simp only [composedDecode, h, composedFields_eq_extract, composedSigning_word, assemble, fields_decodeRaw,
    format_extract, word_extract, ← composedFormula_word, indexTarget_eq_map, statusOf_eq, valueRead_eq,
    machineClass_eq]
  -- Left: the defaults of R15 and the resolver of R69, which the composition writes out.
  rfl

/-- A parser error of the string is the composition's result. -/
theorem composedDecode_of_parse_error {hex : String} {err : ParseError} (s : State) (h : parse hex = .error err) :
    composedDecode hex s.pcOvr s.bOvr s.xOvr s.optab s.memmap s.f4Index = .error err := by
  simp only [composedDecode, h]

/-- The step puts the composition's result on the output port (R99). -/
theorem step_eq_composedDecode {s : State} {hex : String} (h : s.hex = some hex) :
    step s = .next (s.setOutput
      (some (composedDecode hex s.pcOvr s.bOvr s.xOvr s.optab s.memmap s.f4Index))) := by
  cases hp : parse hex with
  | error err => simp [step, h, decodeHex, hp, raiseError, composedDecode_of_parse_error s hp]
  | ok w => simp [step, h, decodeHex, hp, exec_eq_finish, finish_eq, composedDecode_of_parse_ok s hp]

end Sys2Proof.Machine
end

section
/-! SUPPORT. The step and the output port: it is all that a step writes, and no step reads it (R3). -/

namespace Sys2Proof.Machine

/-- Whatever a step does, it only sets the output port. -/
theorem step_next_setOutput {s t : State} (h : step s = .next t) : ∃ o, t = s.setOutput o := by
  obtain ⟨-, ht⟩ | ⟨_, _, -, -, ht⟩ | ⟨_, _, -, -, ht⟩ := step_next h
  all_goals exact ⟨_, ht⟩

/-- The mode formulas read no earlier output. -/
@[simp] theorem taBaseOf_setOutput (i : Instr) (s : State) (o : Option Result) :
    taBaseOf i (s.setOutput o) = taBaseOf i s := by
  cases i <;> rfl

/-- The record reads no earlier output. -/
@[simp] theorem assemble_setOutput (f : FieldSet) (taBase : Option Int) (s : State) (o : Option Result) :
    assemble f taBase (s.setOutput o) = assemble f taBase s := by
  cases taBase <;> rfl

/-- Executing an instruction reads no earlier output. -/
@[simp] theorem exec_setOutput (i : Instr) (s : State) (o : Option Result) : exec i (s.setOutput o) = exec i s := by
  simp only [exec_eq_finish, finish_eq, taBaseOf_setOutput, assemble_setOutput, setOutput_setOutput]

/-- A step reads no earlier output: not when idle, not for an error, not for an instruction. -/
@[simp] theorem step_setOutput (s : State) (o : Option Result) : step (s.setOutput o) = step s := by
  cases hh : s.hex with
  | none => simp [step, hh, idle]
  | some hex => cases hd : decodeHex hex <;> simp [step, hh, hd, raiseError]

end Sys2Proof.Machine
end

section
/-! PROOFS. The claims on the scope of a decode (00_scope.md R3). -/

namespace Sys2Proof.Machine

/-- Settles O45: every outcome of a step is the state with its output port set. -/
theorem stepWritesOnlyTheOutput : Obligations.StepWritesOnlyTheOutput := by
  intro s t h
  obtain ⟨o, rfl⟩ := step_next_setOutput h
  simp

/-- Settles O47: what a step decodes, and all it looks up for it, lies beside the output port. -/
theorem earlierOutputDoesNotMatter : Obligations.EarlierOutputDoesNotMatter := step_setOutput

/-- Settles O52, by induction on the requests: each step is the composed decode of the request just presented, and
leaves both tables and the parameter to the next as they were. -/
theorem batchResultsAreIndependent : Obligations.BatchResultsAreIndependent := by
  intro s requests
  induction requests generalizing s with
  | nil => rfl
  | cons q qs ih =>
    have hstep := step_eq_composedDecode (s := q.on s) (present_hex s q.hex q.pcOvr q.bOvr q.xOvr)
    simp only [runBatch, hstep, ih, List.map_cons]
    simp [Request.on]

end Sys2Proof.Machine
end

section
/-! SUPPORT. What the decoder can answer, what the fields of a decoded word are, and where `ta_base` and the target are
absent and how far they reach: each said once. -/

namespace Sys2Proof

/-- The decoder answers instructions of words only: nothing else reaches `exec` (R55). -/
theorem eq_decodeRaw_of_decodeHex {hex : String} {i : Instr} (h : decodeHex hex = .ok i) : ∃ w, i = decodeRaw w := by
  unfold decodeHex at h
  split at h
  · cases h
  · next w _ => exact ⟨w, (Except.ok.inj h).symm⟩

/-- The length that an error carries is never one of the two that R60 supports. -/
theorem ne_of_decodeHex_unsupportedLength {hex : String} {n : Nat}
    (h : decodeHex hex = .error (.unsupportedLength n)) : n ≠ 6 ∧ n ≠ 8 := by
  by_cases hlen : hex.length = 6 ∨ hex.length = 8
  · cases hv : hexNumber hex.toList 0 <;> simp [decodeHex, parse, hlen, hv] at h
  · obtain rfl : hex.length = n := by simpa [decodeHex, parse, hlen] using h
    exact not_or.mp hlen

/-- The instruction read from a table word is decoded from the word's hex string (log entry 16). -/
theorem decodeHex_tableHex {nbits w : Nat} {i : Instr} (h : decodeTableWord nbits w = some i) :
    decodeHex (tableHex nbits w) = .ok i := by
  unfold decodeTableWord at h
  split at h
  · cases h
  · next hd => exact hd.trans (congrArg _ (Option.some.inj h))

/-- The extracted opcode byte is the masked top byte of the word (R46). -/
theorem toNat_opcode_extract (w : RawWord) :
    (extract w).opcode.toNat = w.toNat / 2 ^ (w.format.width - 8) &&& 0xFC := by
  have small (k : Nat) : k &&& 0xFC < 2 ^ 8 := Nat.lt_of_le_of_lt Nat.and_le_right (by decide)
  rw [← composedFields_eq_extract]
  simp only [Machine.composedFields, BitVec.toNat_ofNat, Nat.shiftRight_eq_div_pow, Nat.mod_eq_of_lt (small _)]

/-- The opcode byte of an instruction is that of its Field Set. -/
@[simp] theorem fields_opcode (i : Instr) : i.fields.opcode = i.opcode := by
  cases i <;> rfl

/-- The index bit of an instruction is that of its Field Set. -/
@[simp] theorem fields_x (i : Instr) : i.fields.x = i.x := by
  cases i <;> rfl

end Sys2Proof

namespace Sys2Proof.Machine

/-- A signed displacement lies in the range of 12 bits in two's complement (R67). -/
theorem signedDisp_bounds (d : Disp) : -2048 ≤ signedDisp d ∧ signedDisp d ≤ 2047 := by
  have := d.isLt
  rw [signedDisp_eq]
  split <;> omega

/-- The signed reading of a field has the bits of the raw one (R67, R68). -/
theorem dispSigned_emod (f : FieldSet) :
    dispSigned f.disp % (2 : Int) ^ (f.format.width - 12) = (dispNat f.disp : Int) := by
  unfold FieldSet.format
  cases f.disp with
  | disp d =>
    have := d.isLt
    simp only [dispSigned, dispNat, Format.width, signedDisp_eq]
    split <;> omega
  | addr a =>
    have := a.isLt
    simp only [dispSigned, dispNat, Format.width]
    omega

/-- The mode formulas give no `ta_base` exactly in the two no-rule cases (R86, R88). -/
theorem taBaseOf_eq_none_iff (i : Instr) (s : State) :
    taBaseOf i s = none ↔ i.decodeCase = .f3SimpleNorule ∨ i.decodeCase = .f3IndirectNorule := by
  cases i <;> simp [taBaseOf, Instr.decodeCase]

/-- Format 4 always has a `ta_base` (R90). -/
theorem taBaseOf_ne_none_of_f4 {i : Instr} (s : State) (h : i.fields.format = .f4) : taBaseOf i s ≠ none := by
  cases i with
  | f4Addr => exact Option.some_ne_none _
  | _ => cases h

/-- Before indexing, every sum lies between the least displacement and the greatest register plus the greatest
displacement (R93). -/
theorem taBaseOf_bounds {i : Instr} {s : State} {t : Int} (h : taBaseOf i s = some t) :
    -2048 ≤ t ∧ t ≤ 16777215 + 2047 := by
  cases i with
  | f3Sic op x b p e d =>
    obtain rfl := Option.some.inj h
    rw [sicAddress_eq]
    omega
  | f3SimplePc op x e d =>
    obtain rfl := Option.some.inj h
    have := s.regPc.isLt
    have := signedDisp_bounds d
    simp only [pcRelative]
    omega
  | f3SimpleBase op x e d =>
    obtain rfl := Option.some.inj h
    have := s.regB.isLt
    have := signedDisp_bounds d
    simp only [baseRelative]
    omega
  | f3SimpleDirect op x e d =>
    obtain rfl := Option.some.inj h
    have := d.isLt
    simp only [directAddress]
    omega
  | f3IndirectPc op x b e d =>
    obtain rfl := Option.some.inj h
    have := (pointerRead s.memmap (indirectPointer s d)).isLt
    simp only [indirectTarget]
    omega
  | f3Immediate op x b p e d =>
    obtain rfl := Option.some.inj h
    have := d.isLt
    rw [immediateOperand_eq]
    omega
  | f4Addr op n i x b p e a =>
    obtain rfl := Option.some.inj h
    have := a.isLt
    simp only [extendedAddress]
    omega
  | f3SimpleNorule | f3IndirectNorule => cases h

/-- The index adder neither makes a target nor takes one away (R81, R92). -/
@[simp] theorem indexTarget_eq_none_iff {s : State} {fmt : Format} {x : Bool} {taBase : Option Int} :
    indexTarget s fmt x taBase = none ↔ taBase = none := by
  rw [indexTarget_eq_map, Option.map_eq_none_iff]

/-- Every target lies in the range of R93. -/
theorem targetInRange_of_indexTarget {i : Instr} {s : State} {fmt : Format} {x : Bool} {t : Int}
    (h : indexTarget s fmt x (taBaseOf i s) = some t) : TargetInRange t := by
  rw [indexTarget_eq_map, Option.map_eq_some_iff] at h
  obtain ⟨base, hbase, rfl⟩ := h
  have := taBaseOf_bounds hbase
  have := s.regX.isLt
  unfold TargetInRange
  split <;> omega

/-- `Computed` exactly with a target (R20). -/
theorem statusOf_eq_computed_iff (target : Option Int) : statusOf target = .computed ↔ target.isSome = true := by
  cases target <;> simp [statusOf]

/-- An idle step (R23; log entry 2). -/
theorem step_of_hex_none {s : State} (h : s.hex = none) : step s = .next (s.setOutput none) := by
  simp [step, h, idle]

/-- The step of a request that decodes is the meaning of its instruction (R99). -/
theorem step_of_decodeHex_ok {s : State} {hex : String} {i : Instr} (h : s.hex = some hex)
    (hi : decodeHex hex = .ok i) : step s = exec i s := by
  simp only [step, h, hi]

end Sys2Proof.Machine
end

section
/-! SUPPORT. A record hangs together, and it depends on a register only where the case reads it (R14). -/

namespace Sys2Proof.Machine

/-- The record of a decoded word hangs together under the tables it was decoded with. -/
theorem assemble_decodeRaw_consistent (w : RawWord) (s : State) :
    (assemble (decodeRaw w).fields (taBaseOf (decodeRaw w) s) s).Consistent s.optab s.memmap where
  format_raw := (word_format _).symm
  opcode_raw := by
    simpa only [assemble, fields_decodeRaw, format_extract, word_extract] using toNat_opcode_extract w
  mnemonic_optab := rfl
  dispRaw_raw := by
    simpa only [assemble, fields_decodeRaw, format_extract, word_extract] using dispNat_extract w
  dispSigned_mod := dispSigned_emod _
  status_target := statusOf_eq_computed_iff _
  format4_target h :=
    Option.isSome_iff_ne_none.mpr (mt indexTarget_eq_none_iff.mp (taBaseOf_ne_none_of_f4 s h))
  target_range _ h := targetInRange_of_indexTarget h
  value_memmap := valueRead_eq _ _
  class_format h := by
    simp only [assemble, machineClass_eq] at h ⊢
    split at h
    · next hsic => exact hsic.1
    · cases h

/-- Setting the output port keeps the invariant when what it then shows hangs together. -/
theorem State.Inv.setOutput {s : State} (h : s.Inv) {o : Option Result} (ho : OutputConsistent (s.setOutput o)) :
    (s.setOutput o).Inv :=
  ⟨h.memmap_wf, h.optab_wf, ho⟩

/-- An error on the output port hangs together when a string was refused with it. -/
theorem outputConsistent_error {hex : String} {err : ParseError} (s : State) (h : decodeHex hex = .error err) :
    OutputConsistent (s.setOutput (some (.error err))) := by
  cases err with
  | unsupportedLength n => exact ne_of_decodeHex_unsupportedLength h
  | invalidHexInput => trivial

/-- The record depends on the state by the two tables and the target alone. -/
theorem assemble_congr {f : FieldSet} {taBase : Option Int} {s t : State} (hop : t.optab = s.optab)
    (hmem : t.memmap = s.memmap) (htarget : indexTarget t f.format f.x taBase = indexTarget s f.format f.x taBase) :
    assemble f taBase t = assemble f taBase s := by
  simp only [assemble, hop, hmem, htarget]

/-- Two states with the same tables, in which an instruction has the same `ta_base` and the same target, give the same
record. -/
theorem exec_eq_of_target_eq {i : Instr} {s t : State} (hop : t.optab = s.optab) (hmem : t.memmap = s.memmap)
    (hbase : taBaseOf i t = taBaseOf i s)
    (htarget : indexTarget t i.fields.format i.fields.x (taBaseOf i s) =
      indexTarget s i.fields.format i.fields.x (taBaseOf i s)) :
    exec i t = .next (t.setOutput (some (.record (assemble i.fields (taBaseOf i s) s)))) := by
  rw [exec_eq_finish, finish_eq, hbase, assemble_congr hop hmem htarget]

/-- Only F3.SIMPLE.PC and F3.INDIRECT.PC read PC (R83, R87). -/
theorem taBaseOf_pcOvr {i : Instr} (s : State) (v : Option Reg) (hpc : i.decodeCase ≠ .f3SimplePc)
    (hind : i.decodeCase ≠ .f3IndirectPc) : taBaseOf i { s with pcOvr := v } = taBaseOf i s := by
  cases i with
  | f3SimplePc => exact absurd rfl hpc
  | f3IndirectPc => exact absurd rfl hind
  | _ => rfl

/-- Only F3.SIMPLE.BASE reads B (R84). -/
theorem taBaseOf_bOvr {i : Instr} (s : State) (v : Option Reg) (hbase : i.decodeCase ≠ .f3SimpleBase) :
    taBaseOf i { s with bOvr := v } = taBaseOf i s := by
  cases i with
  | f3SimpleBase => exact absurd rfl hbase
  | _ => rfl

/-- No mode formula reads X: the index adder alone does (R92). -/
theorem taBaseOf_xOvr (i : Instr) (s : State) (v : Option Reg) :
    taBaseOf i { s with xOvr := v } = taBaseOf i s := by
  cases i <;> rfl

/-- The index adder reads no register but X. -/
theorem indexTarget_of_regX_eq {s t : State} (hx : t.regX = s.regX) (hf4 : t.f4Index = s.f4Index) (fmt : Format)
    (x : Bool) (taBase : Option Int) : indexTarget t fmt x taBase = indexTarget s fmt x taBase := by
  simp only [indexTarget_eq_map, hx, hf4]

/-- The index adder reads X only when x = 1, there is a `ta_base`, and the format is not 4 with `F4_INDEX` false (R90,
R92). -/
theorem indexTarget_xOvr {s : State} {fmt : Format} {x : Bool} {taBase : Option Int} (v : Option Reg)
    (h : x = false ∨ taBase = none ∨ (fmt = .f4 ∧ s.f4Index = false)) :
    indexTarget { s with xOvr := v } fmt x taBase = indexTarget s fmt x taBase := by
  obtain rfl | rfl | ⟨rfl, hf4⟩ := h
  · simp [indexTarget_eq_map]
  · rfl
  · simp [indexTarget_eq_map, hf4]

end Sys2Proof.Machine
end

section
/-! PROOFS. The claims on the state (10_state.md): its invariant, its registers, its ports and its record. -/

namespace Sys2Proof.Machine

/-- Settles O53: a step only sets the output port, to nothing, to an error of a refused string, or to the record of a
decoded word. -/
theorem stepKeepsStateConsistent : Obligations.StepKeepsStateConsistent := by
  intro s t hinv h
  obtain ⟨-, rfl⟩ | ⟨hex, err, -, herr, rfl⟩ | ⟨hex, i, -, hi, rfl⟩ := step_next h
  · exact hinv.setOutput trivial
  · exact hinv.setOutput (outputConsistent_error s herr)
  · obtain ⟨w, rfl⟩ := eq_decodeRaw_of_decodeHex hi
    exact hinv.setOutput (assemble_decodeRaw_consistent w s)

/-- Settles O43: PC and B enter by the mode formulas of their own cases, X by the index adder alone. -/
theorem unreadRegistersDoNotMatter : Obligations.UnreadRegistersDoNotMatter := by
  intro i s v
  refine ⟨assemble i.fields (taBaseOf i s) s, exec_eq_finish i s, fun hpc hind => ?_, fun hbase => ?_, fun hx => ?_⟩
  · exact exec_eq_of_target_eq rfl rfl (taBaseOf_pcOvr s v hpc hind) (indexTarget_of_regX_eq rfl rfl _ _ _)
  · exact exec_eq_of_target_eq rfl rfl (taBaseOf_bOvr s v hbase) (indexTarget_of_regX_eq rfl rfl _ _ _)
  · refine exec_eq_of_target_eq rfl rfl (taBaseOf_xOvr i s v) (indexTarget_xOvr v ?_)
    rw [fields_x]
    exact hx.imp_right (.imp_left indexTarget_eq_none_iff.mp)

/-- Settles O46: what an instruction answers is the state with its output port set. -/
theorem instructionWritesOnlyTheOutput : Obligations.InstructionWritesOnlyTheOutput := by
  intro i s t h
  obtain rfl := exec_next h
  simp

/-- Settles O2: no request, so the step is the idle one. -/
theorem noRequestGivesNoOutput : Obligations.NoRequestGivesNoOutput := fun _ => step_of_hex_none

/-- Settles O3: the string placed is the hex string of the word. -/
theorem placedTableWordIsRunByTheStep : Obligations.PlacedTableWordIsRunByTheStep := by
  intro s nbits w i h
  exact ⟨tableHex nbits w, rfl, step_of_decodeHex_ok (presentHex_hex s _) (decodeHex_tableHex h)⟩

/-- Settles O14: the bus is cut to 24 bits for format 3, and is the word itself for format 4. -/
theorem busCarriesFormat3InItsLow24Bits : Obligations.BusCarriesFormat3InItsLow24Bits :=
  fun bus => ⟨BitVec.toNat_setWidth 24 bus, rfl, rfl, rfl⟩

/-- Settles O15, for each register by whether its override is supplied. -/
theorem omittedRegistersReadTheirDefaults : Obligations.OmittedRegistersReadTheirDefaults := by
  intro s hex p b x
  refine ⟨?_, ?_, ?_⟩
  · cases p <;> rfl
  · cases b <;> rfl
  · cases x <;> rfl

/-- Settles O16: reset presents no override, so that each register reads its default. -/
theorem resetReadsTheDefaults : Obligations.ResetReadsTheDefaults := ⟨rfl, rfl, rfl, rfl, rfl⟩

/-- Settles O26: the record is the one that the shared back end assembles from the instruction's fields. -/
theorem everyInstructionCompletesWithAWholeRecord : Obligations.EveryInstructionCompletesWithAWholeRecord := by
  intro i s
  exact ⟨assemble i.fields (taBaseOf i s) s, exec_eq_finish i s, rfl, (word_format _).symm, fields_opcode i, rfl,
    valueRead_eq _ _, statusOf_eq_computed_iff _, indexTarget_eq_none_iff.trans (taBaseOf_eq_none_iff i s)⟩

end Sys2Proof.Machine
end

section
/-! SUPPORT. What a table lookup answers, in terms of the table's entries (R9, R17, R27, R29). -/

namespace Sys2Proof.Machine

/-- A lookup finds nothing exactly when the key is that of no entry. -/
theorem tableGet_eq_none_iff {κ ν : Type} [DecidableEq κ] {t : List (κ × ν)} {k : κ} :
    tableGet t k = none ↔ ∀ q ∈ t, q.1 ≠ k := by
  induction t with
  | nil => simp [tableGet]
  | cons q t ih =>
    by_cases hk : q.1 = k
    · simp [tableGet, hk]
    · simp [tableGet, hk, ih]

/-- In a canonical table the keys of the later entries differ from the first. -/
theorem ne_key_of_tableSorted_cons {κ ν : Type} {rank : κ → Int} {k : κ} {v : ν} {t : List (κ × ν)}
    (sorted : tableSorted rank ((k, v) :: t) = true) {q : κ × ν} (hq : q ∈ t) : k ≠ q.1 := by
  rw [tableSorted_cons, Bool.and_eq_true, List.all_eq_true] at sorted
  have below : rank k < rank q.1 := of_decide_eq_true (sorted.1 q hq)
  exact fun same => below.ne (congrArg rank same)

/-- In a canonical table a lookup finds exactly the entry of its key: no later entry repeats the key of an earlier. -/
theorem tableGet_eq_some_iff {κ ν : Type} [DecidableEq κ] {rank : κ → Int} {t : List (κ × ν)} {k : κ} {v : ν}
    (sorted : tableSorted rank t = true) : tableGet t k = some v ↔ (k, v) ∈ t := by
  induction t with
  | nil => simp [tableGet]
  | cons q t ih =>
    have rest : tableSorted rank t = true := (Bool.and_eq_true_iff.mp sorted).2
    by_cases hk : q.1 = k
    · subst hk
      have notLater : (q.1, v) ∉ t := fun later => ne_key_of_tableSorted_cons sorted later rfl
      simp [tableGet, notLater, Prod.ext_iff, eq_comm]
    · have notFirst : (k, v) ≠ q := fun first => hk (congrArg Prod.fst first.symm)
      simp [tableGet, hk, ih rest, notFirst]

/-- The memory read is absent exactly at an address that is no key (R29). -/
theorem memRead_eq_none_iff {m : Memory} {a : Int} : memRead m a = none ↔ ∀ q ∈ m, q.1 ≠ a :=
  tableGet_eq_none_iff

/-- The memory read of a canonical map is some value exactly when the map has that entry (R29). -/
theorem memRead_eq_some_iff {m : Memory} {a : Int} {v : MemVal} (h : m.wf = true) :
    memRead m a = some v ↔ (a, v) ∈ m :=
  tableGet_eq_some_iff h

end Sys2Proof.Machine
end

section
/-! SUPPORT. The two reads at an absent key (R31), and what the record says of its target (R20, R97, R98). -/

namespace Sys2Proof.Machine

/-- `sext_12` is the two's-complement reading of the displacement (R67). -/
theorem signedDisp_eq_toInt (d : Disp) : signedDisp d = d.toInt := by
  rw [signedDisp_eq, BitVec.toInt_eq_toNat_cond]
  split <;> split <;> omega

/-- A pointer that is no key gives the target 0 (R31, R87). -/
theorem indirectTarget_of_absent {s : State} {d : Disp} (h : ∀ q ∈ s.memmap, q.1 ≠ indirectPointer s d) :
    indirectTarget s d = 0 := by
  rw [indirectTarget, pointerRead_of_none (memRead_eq_none_iff.mpr h)]
  rfl

/-- The record's value is the memory read at its own target (R97, R98). -/
theorem assemble_value (f : FieldSet) (taBase : Option Int) (s : State) :
    (assemble f taBase s).value = (assemble f taBase s).target.bind (memRead s.memmap) :=
  valueRead_eq _ _

/-- A record that has a target is `Computed` (R20). -/
theorem assemble_status_of_target {f : FieldSet} {taBase : Option Int} {s : State} {t : Int}
    (h : (assemble f taBase s).target = some t) : (assemble f taBase s).status = .computed :=
  (statusOf_eq_computed_iff _).mpr (Option.isSome_of_eq_some h)

/-- At an absent pointer F3.INDIRECT.PC still has a target: 0, plus `reg.x` when x = 1 (R31, R92). -/
theorem target_f3IndirectPc_of_absent (op : Opcode) (x b e : Bool) {d : Disp} {s : State}
    (h : ∀ q ∈ s.memmap, q.1 ≠ indirectPointer s d) :
    (assemble (Instr.f3IndirectPc op x b e d).fields (taBaseOf (.f3IndirectPc op x b e d) s) s).target =
      some (if x then (s.regX.toNat : Int) else 0) := by
  have base : taBaseOf (.f3IndirectPc op x b e d) s = some 0 := congrArg some (indirectTarget_of_absent h)
  rw [base]
  cases x <;> simp [assemble, Instr.fields, FieldSet.format, indexTarget_some, indexes]

end Sys2Proof.Machine
end

section
/-! PROOFS. The claims on memory (20_memory.md R29, R31) and on a repeated decode. -/

namespace Sys2Proof.Machine

/-- Settles O36: canonical keys are unique, so that the entry a lookup finds is the only one of its key. -/
theorem memoryReadIsTheEntryOfItsKey : Obligations.MemoryReadIsTheEntryOfItsKey :=
  fun _ _ h => ⟨fun _ => memRead_eq_some_iff h, memRead_eq_none_iff⟩

/-- Settles O38: the pointer read gives an absent key the value 0 and the decode goes on; the value read leaves it
absent, beside a target that is there. -/
theorem absentKeysReadAsZeroOrAsNothing : Obligations.AbsentKeysReadAsZeroOrAsNothing := by
  refine ⟨fun op x b e d s habsent => ⟨_, exec_eq_finish _ s, ?_⟩, fun i s => ⟨_, exec_eq_finish i s, ?_⟩⟩
  · rw [← signedDisp_eq_toInt] at habsent
    have htarget := target_f3IndirectPc_of_absent op x b e habsent
    exact ⟨htarget, assemble_status_of_target htarget⟩
  · intro t htarget habsent
    refine ⟨?_, assemble_status_of_target htarget⟩
    rw [assemble_value, htarget]
    exact memRead_eq_none_iff.mpr habsent

/-- Settles O48: the step only sets the output port, and the same request on the same tables is decoded again without
reading it. -/
theorem repeatedDecodeGivesTheSameResult : Obligations.RepeatedDecodeGivesTheSameResult := by
  intro s t h
  obtain ⟨o, rfl⟩ := step_next_setOutput h
  rw [step_setOutput]
  exact h

end Sys2Proof.Machine
end

section
/-! SUPPORT. The hex parser: what its loop reads from digits, when it refuses, and that the string of a word parses to the
word (R45, R59 to R62). -/

namespace Sys2Proof

/-- A digit is worth less than 16 (R62). -/
theorem digitValue_lt {c : Char} {v : Nat} (h : digitValue c = some v) : v < 16 := by
  obtain ⟨r, hr, hv⟩ := List.exists_of_findSome?_eq_some h
  have top : ∀ r ∈ digitRuns, r.value + r.last.toNat < r.first.toNat + 16 := by decide
  have := top r hr
  unfold DigitRun.valueOf at hv
  split at hv
  · cases hv
  · cases hv
    omega

/-- The digit written for a value reads as the value. -/
theorem digitValue_hexChar {v : Nat} (h : v < 16) : digitValue (hexChar v) = some v := by
  interval_cases v <;> rfl

/-- The loop fails exactly at a character that is no digit (R61). -/
theorem hexNumber_eq_none_iff {cs : List Char} {acc : Nat} :
    hexNumber cs acc = none ↔ ∃ c ∈ cs, digitValue c = none := by
  induction cs generalizing acc with
  | nil => simp [hexNumber]
  | cons c cs ih => cases hc : digitValue c <;> simp [hexNumber, hc, ih]

/-- Each of the 22 digit characters has a value (R61, R62). -/
theorem digitValue_ne_none {c : Char} (h : c ∈ "0123456789ABCDEFabcdef".toList) : digitValue c ≠ none := by
  fin_cases h <;> decide

/-- The loop answers on digits, in either letter case (R61). -/
theorem exists_hexNumber {cs : List Char} (h : ∀ c ∈ cs, c ∈ "0123456789ABCDEFabcdef".toList) (acc : Nat) :
    ∃ v, hexNumber cs acc = some v := by
  refine Option.ne_none_iff_exists'.mp fun hnone => ?_
  obtain ⟨c, hc, hv⟩ := hexNumber_eq_none_iff.mp hnone
  exact digitValue_ne_none (h c hc) hv

/-- The value of an upper-case digit is its place among them (R45). -/
theorem digitValue_eq_idxOf {c : Char} (h : c ∈ "0123456789ABCDEF".toList) :
    digitValue c = some ("0123456789ABCDEF".toList.idxOf c) := by
  fin_cases h <;> rfl

/-- Each digit read adds one base-16 place to the number. -/
theorem hexNumber_lt {cs : List Char} {acc v : Nat} (h : hexNumber cs acc = some v) :
    v < (acc + 1) * 16 ^ cs.length := by
  induction cs generalizing acc with
  | nil =>
    cases h
    simp
  | cons c cs ih =>
    cases hc : digitValue c with
    | none => simp [hexNumber, hc] at h
    | some d =>
      have place : acc * 16 + d + 1 ≤ (acc + 1) * 16 := by
        have := digitValue_lt hc
        omega
      calc v < (acc * 16 + d + 1) * 16 ^ cs.length := ih (by simpa [hexNumber, hc] using h)
        _ ≤ (acc + 1) * 16 * 16 ^ cs.length := Nat.mul_le_mul_right _ place
        _ = (acc + 1) * 16 ^ (c :: cs).length := by rw [List.length_cons, Nat.pow_succ', Nat.mul_assoc]

/-- Digits with the values `f` are read as the sum of the values at their places, the first character at the highest
(R45). -/
theorem hexNumber_eq_sum {f : Char → Nat} {cs : List Char} {acc : Nat} (h : ∀ c ∈ cs, digitValue c = some (f c)) :
    hexNumber cs acc = some (acc * 16 ^ cs.length +
      ((List.range cs.length).map fun k => f (cs.getD k '0') * 16 ^ (cs.length - 1 - k)).sum) := by
  induction cs generalizing acc with
  | nil => simp [hexNumber]
  | cons c cs ih =>
    obtain ⟨hc, hcs⟩ := List.forall_mem_cons.mp h
    have places (k : Nat) : cs.length - 1 - k = cs.length - (k + 1) := by omega
    simp only [hexNumber, hc, ih hcs, List.length_cons, List.range_succ_eq_map, List.map_cons, List.map_map,
      List.sum_cons, Function.comp_def, List.getD_cons_zero, List.getD_cons_succ, Nat.add_sub_cancel, Nat.sub_zero,
      Nat.succ_eq_add_one, places]
    congr 1
    ring

/-- The digits written for `v` are read as `v`, cut to as many digits (R45). -/
theorem hexNumber_nibbles (k v acc : Nat) :
    hexNumber ((nibbles k v).map hexChar) acc = some (acc * 16 ^ k + v % 16 ^ k) := by
  induction k generalizing acc with
  | zero => simp [nibbles, hexNumber, Nat.mod_one]
  | succ k ih =>
    have digit : digitValue (hexChar (v / 16 ^ k % 16)) = some (v / 16 ^ k % 16) :=
      digitValue_hexChar (Nat.mod_lt _ (by decide))
    simp only [nibbles, List.map_cons, hexNumber, digit, ih, Nat.mod_pow_succ]
    congr 1
    ring

@[simp] theorem length_nibbles (k v : Nat) : (nibbles k v).length = k := by
  induction k with
  | zero => rfl
  | succ k ih => simp [nibbles, ih]

/-- Each hex digit is four bits of the word (R41). -/
theorem Format.sixteen_pow_digits (fmt : Format) : 16 ^ fmt.digits = 2 ^ fmt.width := by
  cases fmt <;> rfl

/-- A word's number has no more bits than its format (R41). -/
theorem RawWord.toNat_lt (w : RawWord) : w.toNat < 2 ^ w.format.width := by
  cases w with
  | f3 w => exact w.isLt
  | f4 w => exact w.isLt

/-- The string that the loop reads as a word's number, with as many digits as the word's format has, parses to the word
(R62). -/
theorem parse_of_hexNumber_toNat {hex : String} {w : RawWord} (hlen : hex.length = w.format.digits)
    (h : hexNumber hex.toList 0 = some w.toNat) : parse hex = .ok w := by
  cases w with
  | f3 w =>
    have h6 : hex.length = 6 := hlen
    simp [parse, h6, h, RawWord.toNat]
  | f4 w =>
    have h8 : hex.length = 8 := hlen
    simp [parse, h8, h, RawWord.toNat]

/-- Digits, as many as a format has, parse to a word of that format and of the number read (R41, R62). -/
theorem exists_parse_of_hexNumber {hex : String} {fmt : Format} {v : Nat} (hlen : hex.length = fmt.digits)
    (h : hexNumber hex.toList 0 = some v) : ∃ w, parse hex = .ok w ∧ w.format = fmt ∧ w.toNat = v := by
  have fits : v < 2 ^ fmt.width := by
    have := hexNumber_lt h
    rwa [String.length_toList, hlen, fmt.sixteen_pow_digits, Nat.zero_add, Nat.one_mul] at this
  have word : ∃ w : RawWord, w.format = fmt ∧ w.toNat = v := by
    cases fmt with
    | f3 => exact ⟨.f3 (BitVec.ofNat 24 v), rfl, Nat.mod_eq_of_lt fits⟩
    | f4 => exact ⟨.f4 (BitVec.ofNat 32 v), rfl, Nat.mod_eq_of_lt fits⟩
  obtain ⟨w, rfl, rfl⟩ := word
  exact ⟨w, parse_of_hexNumber_toNat hlen h, rfl, rfl⟩

/-- A string that parses has as many characters as the word's format has digits (R41, R60). -/
theorem length_of_parse_ok {hex : String} {w : RawWord} (h : parse hex = .ok w) : hex.length = w.format.digits := by
  unfold parse at h
  split at h
  · next hlen =>
    split at h
    · cases h
    · cases h
      split
      · next six => exact six
      · next notSix => exact hlen.resolve_left notSix
  · cases h

/-- A string of another length is refused for its length, whatever its characters are (R60, R107). -/
theorem parse_of_other_length {hex : String} (h6 : hex.length ≠ 6) (h8 : hex.length ≠ 8) :
    parse hex = .error (.unsupportedLength hex.length) := by
  simp only [parse, h6, h8, or_self, if_false]

/-- The hex string of a word parses to the word (R45). -/
@[simp] theorem parse_hex (w : RawWord) : parse w.hex = .ok w := by
  refine parse_of_hexNumber_toNat ?_ ?_
  · simp [RawWord.hex, renderHex]
  · rw [RawWord.hex, renderHex, String.toList_ofList, hexNumber_nibbles, w.format.sixteen_pow_digits,
      Nat.mod_eq_of_lt w.toNat_lt, Nat.zero_mul, Nat.zero_add]

end Sys2Proof
end

section
/-! SUPPORT. Decoding and encoding undo each other, and the rows of R54 part the words by decode case (R55, R65). -/

namespace Sys2Proof

/-- The mask of R46 makes any byte an opcode byte. -/
theorem opcodeWf_and_mask (op : BitVec 8) : opcodeWf (op &&& 0xFC#8) = true := by
  rw [opcodeWf, beq_iff_eq, BitVec.and_assoc]
  exact BitVec.and_zero

/-- The two bits that the mask of R46 clears are 0 in an opcode byte. -/
theorem and_mask_of_opcodeWf {op : Opcode} (h : opcodeWf op = true) : op &&& 0xFC#8 = op := by
  have low : op &&& 0x03#8 = 0#8 := beq_iff_eq.mp h
  calc op &&& 0xFC#8 = op &&& 0xFC#8 ||| op &&& 0x03#8 := by rw [low, BitVec.or_zero]
    _ = op &&& (0xFC#8 ||| 0x03#8) := (BitVec.and_or_distrib_left).symm
    _ = op := BitVec.and_allOnes

/-- The extracted opcode byte is one (R46). -/
theorem opcodeWf_extract (w : RawWord) : opcodeWf (extract w).opcode = true := by
  cases w <;> exact opcodeWf_and_mask _

/-- Extracting a packed format-3 word gives the fields back (R63, R65). -/
theorem extract3_pack3 {op : Opcode} (h : opcodeWf op = true) (n i x b p e : Bool) (d : Disp) :
    extract3 (pack3 op n i x b p e d) = ⟨op, n, i, x, b, p, e, .disp d⟩ := by
  have hopcode : (pack3 op n i x b p e d >>> 16).setWidth 8 &&& 0xFC#8 = op := by
    refine Eq.trans (BitVec.eq_of_getLsbD_eq fun k hk => ?_) (and_mask_of_opcodeWf h)
    rw [BitVec.getLsbD_and, BitVec.getLsbD_setWidth, BitVec.getLsbD_ushiftRight, getLsbD_pack3]
    interval_cases k <;> simp
  have hdisp : (pack3 op n i x b p e d).extractLsb' 0 12 = d := by
    refine BitVec.eq_of_getLsbD_eq fun k hk => ?_
    rw [BitVec.getLsbD_extractLsb', getLsbD_pack3]
    interval_cases k <;> simp
  simp only [extract3, hopcode, hdisp, getLsbD_pack3]
  simp

/-- Extracting a packed format-4 word gives the fields back (R64, R65). -/
theorem extract4_pack4 {op : Opcode} (h : opcodeWf op = true) (n i x b p e : Bool) (a : AddrField) :
    extract4 (pack4 op n i x b p e a) = ⟨op, n, i, x, b, p, e, .addr a⟩ := by
  have hopcode : (pack4 op n i x b p e a >>> 24).setWidth 8 &&& 0xFC#8 = op := by
    refine Eq.trans (BitVec.eq_of_getLsbD_eq fun k hk => ?_) (and_mask_of_opcodeWf h)
    rw [BitVec.getLsbD_and, BitVec.getLsbD_setWidth, BitVec.getLsbD_ushiftRight, getLsbD_pack4]
    interval_cases k <;> simp
  have haddr : (pack4 op n i x b p e a).extractLsb' 0 20 = a := by
    refine BitVec.eq_of_getLsbD_eq fun k hk => ?_
    rw [BitVec.getLsbD_extractLsb', getLsbD_pack4]
    interval_cases k <;> simp
  simp only [extract4, hopcode, haddr, getLsbD_pack4]
  simp

/-- Extracting the word of a Field Set gives it back when its opcode byte is one (R65). -/
theorem extract_word {f : FieldSet} (h : opcodeWf f.opcode = true) : extract f.word = f := by
  rcases f with ⟨op, n, i, x, b, p, e, d | a⟩
  · exact extract3_pack3 h ..
  · exact extract4_pack4 h ..

/-- A word that carries the Field Set of an instruction decodes to it: the flags of each row select its constructor
(R54, R78). -/
theorem decodeRaw_of_extract_eq_fields {w : RawWord} {i : Instr} (h : extract w = i.fields) : decodeRaw w = i := by
  cases w with
  | f3 w =>
    have hfields : extract3 w = i.fields := h
    have hdisp : .disp (w.extractLsb' 0 12) = i.fields.disp := congrArg FieldSet.disp h
    cases i with
    | f4Addr => cases hdisp
    | _ =>
      obtain rfl := DispField.disp.inj hdisp
      simp [decodeRaw, decodeWord3, hfields, Instr.fields]
  | f4 w =>
    have hfields : extract4 w = i.fields := h
    have hdisp : .addr (w.extractLsb' 0 20) = i.fields.disp := congrArg FieldSet.disp h
    cases i with
    | f4Addr =>
      obtain rfl := DispField.addr.inj hdisp
      simp [decodeRaw, decodeWord4, hfields, Instr.fields]
    | _ => cases hdisp

/-- Decoding the encoding of a well-formed instruction gives it back (R54, R65). -/
theorem decodeRaw_encode {i : Instr} (h : i.wf = true) : decodeRaw (encode i) = i :=
  decodeRaw_of_extract_eq_fields (extract_word (by rwa [fields_opcode]))

/-- Encoding the instruction that a word decodes to gives the word back (R55, R65). -/
@[simp] theorem encode_decodeRaw (w : RawWord) : encode (decodeRaw w) = w := by
  rw [encode, fields_decodeRaw, word_extract]

/-- Every word decodes to a well-formed instruction (R55). -/
theorem wf_decodeRaw (w : RawWord) : (decodeRaw w).wf = true := by
  rw [Instr.wf, ← fields_opcode, fields_decodeRaw]
  exact opcodeWf_extract w

/-- An encoded instruction is in every row of its own case (R54). -/
theorem matches_encode (i : Instr) : Laws.EncodeMatchesRow.Statement i := by
  cases i with
  | f3Sic op x b p e d => exact Laws.EncodeMatchesRow.f3Sic op x b p e d
  | f3SimplePc op x e d => exact Laws.EncodeMatchesRow.f3SimplePc op x e d
  | f3SimpleBase op x e d => exact Laws.EncodeMatchesRow.f3SimpleBase op x e d
  | f3SimpleDirect op x e d => exact Laws.EncodeMatchesRow.f3SimpleDirect op x e d
  | f3SimpleNorule op x e d => exact Laws.EncodeMatchesRow.f3SimpleNorule op x e d
  | f3IndirectPc op x b e d => exact Laws.EncodeMatchesRow.f3IndirectPc op x b e d
  | f3IndirectNorule op x b e d => exact Laws.EncodeMatchesRow.f3IndirectNorule op x b e d
  | f3Immediate op x b p e d => exact Laws.EncodeMatchesRow.f3Immediate op x b p e d
  | f4Addr op n i x b p e a => exact Laws.EncodeMatchesRow.f4Addr op n i x b p e a

/-- Every case has a row (R54). -/
theorem exists_row (c : DecodeCase) : ∃ r ∈ caseTable, r.case = c := by
  cases c <;> decide

/-- Two rows of one format whose matches agree under both masks are the same row. -/
theorem caseTable_disjoint : ∀ r ∈ caseTable, ∀ q ∈ caseTable,
    r.format = q.format → r.match' &&& q.mask = q.match' &&& r.mask → r = q := by
  decide

/-- No word is in two rows (R54). -/
theorem row_unique {w : RawWord} {r q : CaseRow} (hr : r ∈ caseTable) (hq : q ∈ caseTable)
    (hrw : r.matches w = true) (hqw : q.matches w = true) : r = q := by
  simp only [CaseRow.matches, Bool.and_eq_true, beq_iff_eq] at hrw hqw
  obtain ⟨hrf, hrm⟩ := hrw
  obtain ⟨hqf, hqm⟩ := hqw
  refine caseTable_disjoint r hr q hq (hrf.trans hqf.symm) ?_
  rw [← hrm, ← hqm, Nat.and_right_comm]

/-- A word is in a row exactly when the row's case is the decoder's (R54). -/
theorem matches_iff {w : RawWord} {r : CaseRow} (hr : r ∈ caseTable) :
    r.matches w = true ↔ r.case = (decodeRaw w).decodeCase := by
  have own {q : CaseRow} (hq : q ∈ caseTable) (hc : q.case = (decodeRaw w).decodeCase) : q.matches w = true := by
    simpa using matches_encode (decodeRaw w) q hq hc
  refine ⟨fun hm => ?_, own hr⟩
  obtain ⟨q, hq, hc⟩ := exists_row (decodeRaw w).decodeCase
  rw [row_unique hr hq hm (own hq hc), hc]

end Sys2Proof
end

section
/-! SUPPORT. The e bit of format 3 reaches no formula outside the SIC format (R53, R57). -/

namespace Sys2Proof

/-- Setting bit 12 of a format-3 word sets the e bit of its Field Set and no other field (R63). -/
theorem extract_or_bit12 (w : BitVec 24) :
    extract (.f3 (w ||| 0x001000#24)) = { extract (.f3 w) with e := true } := by
  simp [extract, extract3, BitVec.extractLsb'_or, BitVec.ushiftRight_or_distrib]

end Sys2Proof

namespace Sys2Proof.Machine

/-- Only the formula of F3.SIC reads the Field Set beside the displacement (R82 to R90). -/
theorem composedFormula_congr {c : DecodeCase} (hc : c ≠ .f3Sic) (f g : FieldSet) (raw : Nat) (signed : Int)
    (pc b : Nat) (m : Memory) : composedFormula c f raw signed pc b m = composedFormula c g raw signed pc b m := by
  cases c with
  | f3Sic => exact absurd rfl hc
  | _ => rfl

/-- An instruction in the SIC format has n and i clear (R54). -/
theorem fields_n_i_of_f3Sic {i : Instr} (h : i.decodeCase = .f3Sic) : i.fields.n = false ∧ i.fields.i = false := by
  cases i with
  | f3Sic => exact ⟨rfl, rfl⟩
  | _ => cases h

/-- A format-3 word with n or i set is outside the SIC format (R54). -/
theorem decodeCase_ne_f3Sic {w : BitVec 24} (h : w.getLsbD 17 = true ∨ w.getLsbD 16 = true) :
    (decodeRaw (.f3 w)).decodeCase ≠ .f3Sic := by
  intro hsic
  have clear := fields_n_i_of_f3Sic hsic
  rw [fields_decodeRaw] at clear
  obtain ⟨hn, hi⟩ : w.getLsbD 17 = false ∧ w.getLsbD 16 = false := clear
  rw [hn, hi] at h
  exact absurd h (by decide)

/-- Outside the SIC format the e bit changes no `ta_base` (R57). -/
theorem taBaseOf_of_fields_eq_set_e {i j : Instr} {e : Bool} (s : State) (hsic : i.decodeCase ≠ .f3Sic)
    (h : j.fields = { i.fields with e := e }) : taBaseOf j s = taBaseOf i s := by
  have hcase : j.decodeCase = i.decodeCase := by
    rw [← composedSelect_fields, ← composedSelect_fields, h]
    rfl
  rw [← composedFormula_fields, ← composedFormula_fields, hcase, h]
  exact composedFormula_congr hsic ..

/-- In format 3 the record shows the e bit in `raw`, `raw_bin` and `nixbpe` only (R74 to R77). -/
theorem assemble_set_e {f : FieldSet} (e : Bool) (ta : Option Int) (s : State) (h : f.format = .f3) :
    assemble { f with e := e } ta s =
      { assemble f ta s with
        raw := FieldSet.word { f with e := e }
        rawBin := rawBin (FieldSet.word { f with e := e })
        nixbpe := nixbpe { f with e := e } } := by
  have hformat : FieldSet.format { f with e := e } = .f3 := h
  simp [assemble, modeLabel, formatSuffix, machineClass, h, hformat]

end Sys2Proof.Machine
end

section
/-! PROOFS. The claims on the encoding (30_encoding.md). -/

namespace Sys2Proof.Machine

/-- Settles O5: the hex string of a word parses to the word, and decoding undoes encoding. -/
theorem hexOfEncodedInstructionDecodesBack : Obligations.HexOfEncodedInstructionDecodesBack := by
  intro i h
  simp only [decodeHex, parse_hex, decodeRaw_encode h]

/-- Settles O6: the decoded instruction carries the extracted fields, whose opcode byte is masked and whose word is the
one that was decoded. -/
theorem encodingADecodedWordGivesTheWord : Obligations.EncodingADecodedWordGivesTheWord :=
  fun w => ⟨wf_decodeRaw w, encode_decodeRaw w⟩

/-- Settles O7: the row of the decoder's case matches, and no word is in two rows. -/
theorem everyWordIsInExactlyOneCase : Obligations.EveryWordIsInExactlyOneCase := by
  refine fun w => ⟨?_, fun r hr => (matches_iff hr).mp⟩
  obtain ⟨r, hr, hc⟩ := exists_row (decodeRaw w).decodeCase
  have hm := (matches_iff hr).mpr hc
  exact ⟨r, ⟨hr, hm⟩, fun q ⟨hq, hqm⟩ => row_unique hq hr hqm hm⟩

/-- Settles O9: digits are read to a number that fits the format of their count, a string that parses has the count of
its word's format, and the length is looked at first. -/
theorem formatComesFromTheDigitCount : Obligations.FormatComesFromTheDigitCount := by
  refine fun hex => ⟨fun hdigits => ?_, fun w h => ?_, parse_of_other_length⟩
  · obtain ⟨v, hv⟩ := exists_hexNumber hdigits 0
    constructor
    · intro h6
      obtain ⟨w | w, hw, hf, -⟩ := exists_parse_of_hexNumber (fmt := .f3) h6 hv
      · exact ⟨w, hw⟩
      · cases hf
    · intro h8
      obtain ⟨w | w, hw, hf, -⟩ := exists_parse_of_hexNumber (fmt := .f4) h8 hv
      · cases hf
      · exact ⟨w, hw⟩
  · rw [length_of_parse_ok h]
    cases w.format <;> decide

/-- Settles O10: the loop reads the sum of the digits at their places. -/
theorem parsedWordIsTheHexNumeral : Obligations.ParsedWordIsTheHexNumeral := by
  intro hex hlen hdigits
  have hv := hexNumber_eq_sum (acc := 0) fun c hc => digitValue_eq_idxOf (hdigits c hc)
  obtain ⟨fmt, hfmt⟩ : ∃ fmt : Format, hex.length = fmt.digits := hlen.elim (⟨.f3, ·⟩) (⟨.f4, ·⟩)
  obtain ⟨w, hw, hf, hwv⟩ := exists_parse_of_hexNumber hfmt hv
  refine ⟨w, hw, ?_, ?_⟩
  · rw [hf, hfmt]
    cases fmt <;> decide
  · rw [hwv, Nat.zero_mul, Nat.zero_add, String.length_toList]

/-- Settles O44: setting bit 12 sets the e bit of the Field Set, which no formula outside the SIC format reads. -/
theorem eBitChangesNothingOutsideSicFormat : Obligations.EBitChangesNothingOutsideSicFormat := by
  intro w s hni _
  have hfields : (decodeRaw (.f3 (w ||| 0x001000#24))).fields = { (decodeRaw (.f3 w)).fields with e := true } := by
    simp only [fields_decodeRaw, extract_or_bit12]
  have hbase := taBaseOf_of_fields_eq_set_e s (decodeCase_ne_f3Sic hni) hfields
  refine ⟨_, _, exec_eq_finish _ s, exec_eq_finish _ s, ?_⟩
  rw [hbase, hfields, assemble_set_e true _ s (by rw [fields_decodeRaw]; rfl)]

/-- Settles O4: each word is parsed, extracted and selected by evaluation. -/
theorem wordsOfEachRowDecode : Obligations.WordsOfEachRowDecode := by
  unfold Obligations.WordsOfEachRowDecode
  decide

end Sys2Proof.Machine
end

section
/-! SUPPORT. Which characters are digits (R61), that letter case changes no digit's value (R62), and what the parser does
with both. -/

namespace Sys2Proof

/-- A run gives values to its own characters only. -/
theorem DigitRun.le_of_valueOf {r : DigitRun} {c : Char} {v : Nat} (h : r.valueOf c = some v) :
    r.first.toNat ≤ c.toNat ∧ c.toNat ≤ r.last.toNat := by
  unfold DigitRun.valueOf at h
  split at h
  · cases h
  · next inside => omega

/-- The three runs hold digit characters only, each end included (R61). -/
theorem ofNat_mem_digits : ∀ r ∈ digitRuns, ∀ n ≤ r.last.toNat, r.first.toNat ≤ n →
    Char.ofNat n ∈ "0123456789ABCDEFabcdef".toList := by
  decide

/-- A character that is none of the 22 digit characters has no value (R61). -/
theorem digitValue_of_not_mem {c : Char} (h : c ∉ "0123456789ABCDEFabcdef".toList) : digitValue c = none := by
  refine Option.eq_none_iff_forall_ne_some.mpr fun v hv => h ?_
  obtain ⟨r, hr, hrv⟩ := List.exists_of_findSome?_eq_some hv
  obtain ⟨low, high⟩ := DigitRun.le_of_valueOf hrv
  simpa only [Char.ofNat_toNat] using ofNat_mem_digits r hr c.toNat high low

/-- The 26 letters: each and its lower-case form, 32 places on, have one value or none (R61). -/
theorem digitValue_ofNat_add_32 : ∀ n ≤ 'Z'.toNat, 'A'.toNat ≤ n →
    digitValue (Char.ofNat (n + 32)) = digitValue (Char.ofNat n) := by
  decide

/-- Lower case keeps the value of every character, digit or not (R61, R62). -/
@[simp] theorem digitValue_toLower (c : Char) : digitValue c.toLower = digitValue c := by
  by_cases upper : c.isUpper
  · obtain ⟨low, high⟩ : 'A'.toNat ≤ c.toNat ∧ c.toNat ≤ 'Z'.toNat := of_decide_eq_true upper
    rw [Char.toLower_eq_of_isUpper upper, digitValue_ofNat_add_32 c.toNat high low, Char.ofNat_toNat]
  · rw [Char.toLower_eq_of_not_isUpper upper]

/-- The loop sees the values of the characters only (R62). -/
theorem hexNumber_map {f : Char → Char} (h : ∀ c, digitValue (f c) = digitValue c) (cs : List Char) (acc : Nat) :
    hexNumber (cs.map f) acc = hexNumber cs acc := by
  induction cs generalizing acc with
  | nil => rfl
  | cons c cs ih => simp only [List.map_cons, hexNumber, h, ih]

/-- The parser sees the length of a string and the values of its characters only (R60 to R62). -/
theorem parse_map {f : Char → Char} (h : ∀ c, digitValue (f c) = digitValue c) (hex : String) :
    parse (String.ofList (hex.toList.map f)) = parse hex := by
  have hlen : (String.ofList (hex.toList.map f)).length = hex.length := by
    rw [String.length_ofList, List.length_map, String.length_toList]
  simp only [parse, hlen, String.toList_ofList, hexNumber_map h]

/-- A string of a supported length with a character that has no value is refused for its digits (R61, R108). -/
theorem parse_of_digitValue_none {hex : String} {c : Char} (hlen : hex.length = 6 ∨ hex.length = 8)
    (hc : c ∈ hex.toList) (hv : digitValue c = none) : parse hex = .error .invalidHexInput := by
  have hloop : hexNumber hex.toList 0 = none := hexNumber_eq_none_iff.mpr ⟨c, hc, hv⟩
  simp only [parse, hlen, hloop, if_true]

end Sys2Proof

namespace Sys2Proof.Machine

/-- The step of a request that does not parse puts the parser's error on the output port (R106). -/
theorem step_of_parse_error {s : State} {hex : String} {err : ParseError} (h : s.hex = some hex)
    (herr : parse hex = .error err) : step s = .next (s.setOutput (some (.error err))) := by
  simp only [step, h, decodeHex, herr, raiseError]

end Sys2Proof.Machine
end

section
/-! SUPPORT. The record's fields by the bits of its word (R63, R64), its signed displacement (R67, R68) and its mnemonic
(R69). -/

namespace Sys2Proof.Machine

/-- Executing a decoded word puts the record of the extracted Field Set on the output port (R99). -/
theorem exec_decodeRaw (w : RawWord) (s : State) :
    exec (decodeRaw w) s =
      .next (s.setOutput (some (.record (assemble (extract w) (taBaseOf (decodeRaw w) s) s)))) := by
  rw [exec_eq_finish, finish_eq, fields_decodeRaw]

/-- The extracted opcode byte as the shift and mask of R63 and R64. -/
theorem toNat_opcode_extract_shiftRight (w : RawWord) :
    (extract w).opcode.toNat = w.toNat >>> (w.format.width - 8) &&& 0xFC := by
  rw [toNat_opcode_extract, Nat.shiftRight_eq_div_pow]

/-- The string `nixbpe` shows the six bits below the opcode bits of the top byte (R47, R63, R64). -/
theorem toList_nixbpe_extract (w : RawWord) :
    (nixbpe (extract w)).toList =
      [7, 8, 9, 10, 11, 12].map fun k => if w.toNat.testBit (w.format.width - k) then '1' else '0' := by
  rw [nixbpe, String.toList_ofList]
  cases w <;> rfl

/-- The record's signed field is the signed reading of its raw one, whatever the case (R67, R68). -/
theorem assemble_dispSigned (f : FieldSet) (taBase : Option Int) (s : State) :
    (assemble f taBase s).dispSigned = dispSigned (assemble f taBase s).dispRaw := rfl

/-- The signed displacement has the 12 bits of the raw one (R67). -/
theorem signedDisp_emod (d : Disp) : signedDisp d % 4096 = (d.toNat : Int) :=
  -- The fact of R67 on a Field Set, read at any one that holds the displacement.
  dispSigned_emod (Instr.f3SimpleDirect 0#8 false false d).fields

/-- A canonical opcode table resolves an opcode byte to its entry (R69). -/
theorem resolve_of_mem {t : OpTab} {op : Opcode} {name : String} (h : t.wf = true) (hmem : (op, name) ∈ t) :
    resolve t op = name := by
  have sorted : tableSorted OpTab.rank t = true := (Bool.and_eq_true_iff.mp h).1
  rw [resolve, (tableGet_eq_some_iff sorted).mpr hmem, Option.getD_some]

/-- An opcode byte that is no key resolves to `"UNKNOWN"` (R69). -/
theorem resolve_of_absent {t : OpTab} {op : Opcode} (h : ∀ q ∈ t, q.1 ≠ op) : resolve t op = "UNKNOWN" := by
  rw [resolve, tableGet_eq_none_iff.mpr h]
  rfl

/-- No mode formula reads the opcode table. -/
theorem taBaseOf_optab (i : Instr) (s : State) (t : OpTab) : taBaseOf i { s with optab := t } = taBaseOf i s := by
  cases i <;> rfl

/-- The opcode table enters the record by the mnemonic alone (R69). -/
theorem assemble_optab (f : FieldSet) (taBase : Option Int) (s : State) (t : OpTab) :
    assemble f taBase { s with optab := t } = { assemble f taBase s with mnemonic := resolve t f.opcode } := by
  cases taBase <;> rfl

/-- Under another opcode table an instruction gives the same record but for the mnemonic (R69). -/
theorem exec_optab (i : Instr) (s : State) (t : OpTab) :
    exec i { s with optab := t } = .next (State.setOutput { s with optab := t } (some (.record
      { assemble i.fields (taBaseOf i s) s with mnemonic := resolve t i.opcode }))) := by
  rw [exec_eq_finish, finish_eq, taBaseOf_optab, assemble_optab, fields_opcode]

end Sys2Proof.Machine
end

section
/-! PROOFS. The claims on the parser, the extractor and the opcode resolver (40_parse_extract.md). -/

namespace Sys2Proof.Machine

/-- Settles O12: the parser's loop stops at the character that is no digit. -/
theorem nonDigitsAreInvalidHexInput : Obligations.NonDigitsAreInvalidHexInput := by
  intro s hex c h hlen hc hdigit
  exact step_of_parse_error h (parse_of_digitValue_none hlen hc (digitValue_of_not_mem hdigit))

/-- Settles O13: the parser sees a character's value only, which lower case keeps. -/
theorem letterCaseOfDigitsDoesNotMatter : Obligations.LetterCaseOfDigitsDoesNotMatter :=
  parse_map digitValue_toLower

/-- Settles O27, for each format: the record holds the extracted Field Set, each of whose fields is read off the word. -/
theorem extractedFieldsAreBitExact : Obligations.ExtractedFieldsAreBitExact := by
  constructor
  · intro w s
    exact ⟨_, exec_decodeRaw (.f3 w) s, word_extract (.f3 w), toNat_opcode_extract_shiftRight (.f3 w),
      toList_nixbpe_extract (.f3 w), w.extractLsb' 0 12, rfl, dispNat_extract (.f3 w)⟩
  · intro w s
    exact ⟨_, exec_decodeRaw (.f4 w) s, word_extract (.f4 w), toNat_opcode_extract_shiftRight (.f4 w),
      toList_nixbpe_extract (.f4 w), w.extractLsb' 0 20, rfl, dispNat_extract (.f4 w)⟩

/-- Settles O28: the signed field is computed from the raw one alone, by its format. -/
theorem signedDisplacementIsTwosComplement : Obligations.SignedDisplacementIsTwosComplement := by
  refine fun i s => ⟨_, exec_eq_finish i s, fun d hd => ?_, fun a ha => ?_⟩
  · rw [assemble_dispSigned, hd]
    obtain ⟨low, high⟩ := signedDisp_bounds d
    exact ⟨signedDisp_eq d, low, high, signedDisp_emod d⟩
  · rw [assemble_dispSigned, ha]
    rfl

/-- Settles O29: the mnemonic is what the resolver finds for the opcode byte, and no other field reads the table. -/
theorem mnemonicIsTheTableEntryOrUnknown : Obligations.MnemonicIsTheTableEntryOrUnknown := by
  intro i s hwf
  have hmnemonic : (assemble i.fields (taBaseOf i s) s).mnemonic = resolve s.optab i.opcode :=
    congrArg (resolve s.optab) (fields_opcode i)
  refine ⟨assemble i.fields (taBaseOf i s) s, exec_eq_finish i s, fun name hmem => ?_, fun habsent => ?_, fun t => ?_⟩
  · rw [hmnemonic, resolve_of_mem hwf hmem]
  · rw [hmnemonic, resolve_of_absent habsent]
  · exact ⟨resolve t i.opcode, exec_optab i s t⟩

/-- Settles O11: the parser looks at the length first. -/
theorem otherLengthsAreUnsupported : Obligations.OtherLengthsAreUnsupported := by
  intro s hex h h6 h8
  exact step_of_parse_error h (parse_of_other_length h6 h8)

end Sys2Proof.Machine
end

section
/-! SUPPORT. The decode case of a word (R78), the record an instruction leaves, the label as a class string with suffixes
(R71, R73 to R76), and what a label tells of the bits. -/

namespace Sys2Proof

/-- Every Field Set with an opcode byte is the one that some instruction carries (R54, R55). -/
theorem exists_fields_eq {f : FieldSet} (h : opcodeWf f.opcode = true) : ∃ i : Instr, i.fields = f :=
  ⟨decodeRaw f.word, by rw [fields_decodeRaw, extract_word h]⟩

end Sys2Proof

namespace Sys2Proof.Machine

/-- The case of a decoded word is selected from the extracted bits by the nested conditions of R78. -/
theorem decodeCase_decodeRaw (w : RawWord) :
    (decodeRaw w).decodeCase =
      composedSelect w.format (extract w).n (extract w).i (extract w).b (extract w).p := by
  rw [← composedSelect_fields, fields_decodeRaw, format_extract]

/-- The record that an instruction leaves is the one assembled from its Field Set (R99). -/
theorem eq_assemble_of_exec {i : Instr} {s : State} {r : Record}
    (h : exec i s = .next { s with output := some (.record r) }) : r = assemble i.fields (taBaseOf i s) s :=
  Result.record.inj (Option.some.inj (congrArg State.output (exec_next h)))

@[simp] theorem assemble_format (f : FieldSet) (taBase : Option Int) (s : State) :
    (assemble f taBase s).format = f.format := rfl

@[simp] theorem assemble_modeLabel (f : FieldSet) (taBase : Option Int) (s : State) :
    (assemble f taBase s).modeLabel = modeLabel f := rfl

@[simp] theorem assemble_machineClass (f : FieldSet) (taBase : Option Int) (s : State) :
    (assemble f taBase s).machineClass = machineClass f := rfl

/-- Bits 17 and 16 of a format-3 word, read as one number (R63). -/
theorem bits_17_16_clear_iff (w : BitVec 24) :
    w.getLsbD 17 = false ∧ w.getLsbD 16 = false ↔ w.toNat / 2 ^ 16 % 4 = 0 := by
  simp only [← natBit_toNat, natBit, beq_eq_false_iff_ne]
  omega

/-- The class string by n and then by i (R71). -/
theorem addrClass_text (n i : Bool) :
    (addrClass n i).text =
      if n then (if i then "Simple addressing" else "Indirect addressing")
        else (if i then "Immediate addressing" else "SIC format") := by
  cases n <;> cases i <;> rfl

/-- The suffixes of a format-3 label before `Indexed` (R74). -/
theorem formatSuffix_f3 {f : FieldSet} (h : f.format = .f3) :
    formatSuffix f = suffixIf f.p ", PC-relative" ++ suffixIf f.b ", Base-relative" := by
  simp only [formatSuffix, h]

/-- The suffix of a format-4 label before `Indexed` (R73). -/
theorem formatSuffix_f4 {f : FieldSet} (h : f.format = .f4) : formatSuffix f = suffixIf f.e ", Extended" := by
  simp only [formatSuffix, h]

/-- A label is the class string, the suffixes of its own format, and last `Indexed` (R76). -/
theorem modeLabel_eq (f : FieldSet) :
    modeLabel f = (addrClass f.n f.i).text ++
      ((if f.format = .f3 ∧ f.p = true then ", PC-relative" else "") ++
        (if f.format = .f3 ∧ f.b = true then ", Base-relative" else "") ++
        (if f.format = .f4 ∧ f.e = true then ", Extended" else "")) ++
      (if f.x then ", Indexed" else "") := by
  cases hf : f.format with
  | f3 => simp [modeLabel, formatSuffix_f3 hf, suffixIf]
  | f4 => simp [modeLabel, formatSuffix_f4 hf, suffixIf]

/-- A suffix adds its length when its bit is set. -/
@[simp] theorem length_suffixIf (b : Bool) (text : String) :
    (suffixIf b text).length = b.toNat * text.length := by
  cases b <;> simp [suffixIf]

/-- The second character of a label is that of its class string. -/
theorem toList_modeLabel_getElem?_one (f : FieldSet) :
    (modeLabel f).toList[1]? = (addrClass f.n f.i).text.toList[1]? := by
  have long : 1 < (addrClass f.n f.i).text.toList.length := by
    cases addrClass f.n f.i <;> decide
  rw [modeLabel, String.append_assoc, String.toList_append, List.getElem?_append_left long]

/-- The second characters of the four class strings, `I`, `i`, `n` and `m`, tell n and i (R71). -/
theorem n_i_eq_of_text_getElem?_one : ∀ n i m j : Bool,
    (addrClass n i).text.toList[1]? = (addrClass m j).text.toList[1]? → n = m ∧ i = j := by
  decide

/-- The suffixes of format 3 have 13, 15 and 9 characters, whose sums differ for every two choices of suffixes. -/
theorem p_b_x_eq_of_length_eq : ∀ p b x p' b' x' : Bool,
    p.toNat * ", PC-relative".length + b.toNat * ", Base-relative".length + x.toNat * ", Indexed".length =
      p'.toNat * ", PC-relative".length + b'.toNat * ", Base-relative".length + x'.toNat * ", Indexed".length →
        p = p' ∧ b = b' ∧ x = x' := by
  decide

/-- The suffixes of format 4 have 10 and 9 characters, whose sums differ for every two choices of suffixes. -/
theorem e_x_eq_of_length_eq : ∀ e x e' x' : Bool,
    e.toNat * ", Extended".length + x.toNat * ", Indexed".length =
      e'.toNat * ", Extended".length + x'.toNat * ", Indexed".length → e = e' ∧ x = x' := by
  decide

/-- Format-3 labels are the same exactly when the bits they show are: the second character tells the class, and the
length of the rest the suffixes (R74 to R76). -/
theorem modeLabel_eq_iff_f3 {f g : FieldSet} (hf : f.format = .f3) (hg : g.format = .f3) :
    modeLabel f = modeLabel g ↔ f.n = g.n ∧ f.i = g.i ∧ f.x = g.x ∧ f.b = g.b ∧ f.p = g.p := by
  constructor
  · intro h
    obtain ⟨hn, hi⟩ : f.n = g.n ∧ f.i = g.i := n_i_eq_of_text_getElem?_one _ _ _ _ <| by
      rw [← toList_modeLabel_getElem?_one, ← toList_modeLabel_getElem?_one, h]
    obtain ⟨hp, hb, hx⟩ : f.p = g.p ∧ f.b = g.b ∧ f.x = g.x := p_b_x_eq_of_length_eq _ _ _ _ _ _ <| by
      have hlen := congrArg String.length h
      simpa [modeLabel, formatSuffix_f3, hf, hg, hn, hi, Nat.add_assoc] using hlen
    exact ⟨hn, hi, hx, hb, hp⟩
  · rintro ⟨hn, hi, hx, hb, hp⟩
    simp only [modeLabel, formatSuffix_f3 hf, formatSuffix_f3 hg, hn, hi, hx, hb, hp]

/-- Format-4 labels are the same exactly when the bits they show are (R73, R75, R76). -/
theorem modeLabel_eq_iff_f4 {f g : FieldSet} (hf : f.format = .f4) (hg : g.format = .f4) :
    modeLabel f = modeLabel g ↔ f.n = g.n ∧ f.i = g.i ∧ f.x = g.x ∧ f.e = g.e := by
  constructor
  · intro h
    obtain ⟨hn, hi⟩ : f.n = g.n ∧ f.i = g.i := n_i_eq_of_text_getElem?_one _ _ _ _ <| by
      rw [← toList_modeLabel_getElem?_one, ← toList_modeLabel_getElem?_one, h]
    obtain ⟨he, hx⟩ : f.e = g.e ∧ f.x = g.x := e_x_eq_of_length_eq _ _ _ _ <| by
      have hlen := congrArg String.length h
      simpa [modeLabel, formatSuffix_f4, hf, hg, hn, hi, Nat.add_assoc] using hlen
    exact ⟨hn, hi, hx, he⟩
  · rintro ⟨hn, hi, hx, he⟩
    simp only [modeLabel, formatSuffix_f4 hf, formatSuffix_f4 hg, hn, hi, hx, he]

/-- The labels of records of a format are those of the Field Sets of the format: every Field Set's flags and format are
some instruction's (R55). -/
theorem exists_exec_modeLabel_iff {fmt : Format} {text : String} :
    (∃ i s r, exec i s = .next { s with output := some (.record r) } ∧ r.format = fmt ∧ r.modeLabel = text) ↔
      ∃ f : FieldSet, f.format = fmt ∧ modeLabel f = text := by
  constructor
  · rintro ⟨i, s, r, h, hfmt, htext⟩
    obtain rfl := eq_assemble_of_exec h
    exact ⟨i.fields, hfmt, htext⟩
  · rintro ⟨f, hfmt, htext⟩
    obtain ⟨i, hi⟩ := exists_fields_eq (f := { f with opcode := 0#8 }) (by simp [opcodeWf])
    refine ⟨i, State.reset, _, exec_eq_finish i _, ?_⟩
    rw [hi]
    exact ⟨hfmt, htext⟩

/-- A format-3 Field Set with the bits that its label shows: n, i, x, b and p. -/
def fieldsOfShown3 : Bool × Bool × Bool × Bool × Bool → FieldSet
  | (n, i, x, b, p) => ⟨0#8, n, i, x, b, p, false, .disp 0#12⟩

/-- A format-4 Field Set with the bits that its label shows: n, i, x and e. -/
def fieldsOfShown4 : Bool × Bool × Bool × Bool → FieldSet
  | (n, i, x, e) => ⟨0#8, n, i, x, false, false, e, .addr 0#20⟩

/-- Different shown bits have different format-3 labels. -/
theorem modeLabel_fieldsOfShown3_injective : Function.Injective (modeLabel ∘ fieldsOfShown3) := by
  rintro ⟨n, i, x, b, p⟩ ⟨n', i', x', b', p'⟩ h
  obtain ⟨rfl, rfl, rfl, rfl, rfl⟩ : n = n' ∧ i = i' ∧ x = x' ∧ b = b' ∧ p = p' :=
    (modeLabel_eq_iff_f3 rfl rfl).mp h
  rfl

/-- Different shown bits have different format-4 labels. -/
theorem modeLabel_fieldsOfShown4_injective : Function.Injective (modeLabel ∘ fieldsOfShown4) := by
  rintro ⟨n, i, x, e⟩ ⟨n', i', x', e'⟩ h
  obtain ⟨rfl, rfl, rfl, rfl⟩ : n = n' ∧ i = i' ∧ x = x' ∧ e = e' := (modeLabel_eq_iff_f4 rfl rfl).mp h
  rfl

/-- The shown bits reach every format-3 label. -/
theorem exists_modeLabel_f3_iff {text : String} :
    (∃ f : FieldSet, f.format = .f3 ∧ modeLabel f = text) ↔ ∃ bits, (modeLabel ∘ fieldsOfShown3) bits = text := by
  constructor
  · rintro ⟨f, hf, rfl⟩
    exact ⟨(f.n, f.i, f.x, f.b, f.p), (modeLabel_eq_iff_f3 rfl hf).mpr ⟨rfl, rfl, rfl, rfl, rfl⟩⟩
  · rintro ⟨bits, h⟩
    exact ⟨fieldsOfShown3 bits, rfl, h⟩

/-- The shown bits reach every format-4 label. -/
theorem exists_modeLabel_f4_iff {text : String} :
    (∃ f : FieldSet, f.format = .f4 ∧ modeLabel f = text) ↔ ∃ bits, (modeLabel ∘ fieldsOfShown4) bits = text := by
  constructor
  · rintro ⟨f, hf, rfl⟩
    exact ⟨(f.n, f.i, f.x, f.e), (modeLabel_eq_iff_f4 rfl hf).mpr ⟨rfl, rfl, rfl, rfl⟩⟩
  · rintro ⟨bits, h⟩
    exact ⟨fieldsOfShown4 bits, rfl, h⟩

/-- The values of an injective function on a finite type, listed without repetition: as many as the type has members. -/
theorem exists_nodup_list_of_injective {α β : Type} [Fintype α] {label : α → β} (h : Function.Injective label) :
    ∃ labels : List β, labels.length = Fintype.card α ∧ labels.Nodup ∧ ∀ text, text ∈ labels ↔ ∃ a, label a = text :=
  ⟨Finset.univ.toList.map label, by simp, (Finset.nodup_toList _).map h, by simp⟩

end Sys2Proof.Machine
end

section
/-! PROOFS. The claims on the decode case, the label and the machine class (41_mode_classifier.md). -/

namespace Sys2Proof.Machine

/-- Settles O31: the labels of a format are in bijection with the bits they show, five bits in format 3 and four in
format 4. -/
theorem modeLabelTellsTheBitsItShows : Obligations.ModeLabelTellsTheBitsItShows := by
  refine ⟨fun i j s t r q hr hq hfmt => ?_, ?_, ?_⟩
  · obtain rfl := eq_assemble_of_exec hr
    obtain rfl := eq_assemble_of_exec hq
    simp only [assemble_format, assemble_modeLabel] at hfmt ⊢
    cases hi : i.fields.format with
    | f3 => simp [modeLabel_eq_iff_f3 hi (hfmt ▸ hi)]
    | f4 => simp [modeLabel_eq_iff_f4 hi (hfmt ▸ hi)]
  · simp only [exists_exec_modeLabel_iff, exists_modeLabel_f3_iff]
    exact exists_nodup_list_of_injective modeLabel_fieldsOfShown3_injective
  · simp only [exists_exec_modeLabel_iff, exists_modeLabel_f4_iff]
    exact exists_nodup_list_of_injective modeLabel_fieldsOfShown4_injective

/-- Settles O8: the decoder's case is the selected one, and the rows of R54 are the cases. -/
theorem caseIsSelectedFromRawBits : Obligations.CaseIsSelectedFromRawBits :=
  ⟨fun w => (decodeCase_decodeRaw (.f3 w)).trans (if_neg nofun), fun _ => rfl, fun _ _ => matches_iff⟩

/-- Settles O32: the machine class is read from the format and from bits 17 and 16. -/
theorem onlyFormat3SicWordsAreMachineClassSic : Obligations.OnlyFormat3SicWordsAreMachineClassSic := by
  refine fun w s => ⟨_, exec_decodeRaw w s, ?_⟩
  rw [assemble_machineClass, machineClass_eq, format_extract]
  cases w with
  | f3 w => simpa [RawWord.format, RawWord.toNat, extract, extract3] using bits_17_16_clear_iff w
  | f4 w => simp [RawWord.format]

/-- Settles O30: the label of the record is that of the instruction's flags. -/
theorem modeLabelIsClassThenSuffixes : Obligations.ModeLabelIsClassThenSuffixes := by
  refine fun i s => ⟨_, exec_eq_finish i s, ?_⟩
  rw [assemble_modeLabel, modeLabel_eq, addrClass_text]
  rfl

end Sys2Proof.Machine
end

section
/-! SUPPORT. The formulas of the address-arithmetic unit in the terms of R82 to R90, and what the record says of a target
that is computed and of one that is not (R92, R97, R98, R109). -/

namespace Sys2Proof

/-- The low 15 bits of a format-3 word, read as a number, are its bits b, p and e above its displacement (R42). -/
theorem toNat_mod_two_pow_15 (w : BitVec 24) :
    w.toNat % 2 ^ 15 = (w.getLsbD 14).toNat * 2 ^ 14 + (w.getLsbD 13).toNat * 2 ^ 13 +
      (w.getLsbD 12).toNat * 2 ^ 12 + (w.extractLsb' 0 12).toNat := by
  simp only [← BitVec.testBit_toNat, Nat.toNat_testBit, BitVec.extractLsb'_toNat, Nat.shiftRight_zero]
  omega

/-- The low 15 bits of a packed word are the flags b, p and e and the displacement it was packed of (R42, R65). -/
theorem toNat_pack3_mod_two_pow_15 (op : Opcode) (n i x b p e : Bool) (d : Disp) :
    (pack3 op n i x b p e d).toNat % 2 ^ 15 =
      b.toNat * 2 ^ 14 + p.toNat * 2 ^ 13 + e.toNat * 2 ^ 12 + d.toNat := by
  have hmask : pack3 (op &&& 0xFC#8) n i x b p e d = pack3 op n i x b p e d := by
    simp only [pack3, BitVec.and_assoc, BitVec.and_self]
  have hfields := extract3_pack3 (opcodeWf_and_mask op) n i x b p e d
  simp only [hmask, extract3, FieldSet.mk.injEq, DispField.disp.injEq] at hfields
  obtain ⟨-, -, -, -, hb, hp, he, hd⟩ := hfields
  rw [toNat_mod_two_pow_15, hb, hp, he, hd]

/-- Setting bit 15 of a format-3 word sets the x bit of its Field Set and no other field (R63). -/
theorem extract_or_bit15 (w : BitVec 24) :
    extract (.f3 (w ||| 0x008000#24)) = { extract (.f3 w) with x := true } := by
  simp [extract, extract3, BitVec.extractLsb'_or, BitVec.ushiftRight_or_distrib]

/-- Setting bit 23 of a format-4 word sets the x bit of its Field Set and no other field (R64). -/
theorem extract_or_bit23 (w : BitVec 32) :
    extract (.f4 (w ||| 0x00800000#32)) = { extract (.f4 w) with x := true } := by
  simp [extract, extract4, BitVec.extractLsb'_or, BitVec.ushiftRight_or_distrib]

end Sys2Proof

namespace Sys2Proof.Machine

/-- A bit as the number that the library gives it. -/
theorem bitNat_eq_toNat (b : Bool) : bitNat b = b.toNat := by
  cases b <;> rfl

/-- The formula of R82 as a sum: each flag is shifted above all bits that follow it, and the mask cuts nothing. -/
theorem sicAddress_eq_sum (b p e : Bool) (d : Disp) :
    sicAddress b p e d = (b.toNat * 2 ^ 14 + p.toNat * 2 ^ 13 + e.toNat * 2 ^ 12 + d.toNat : Nat) := by
  have hd := d.isLt
  have he := e.toNat_lt
  have hp := p.toNat_lt
  have hb := b.toNat_lt
  have hor : b.toNat * 2 ^ 14 ||| p.toNat * 2 ^ 13 ||| e.toNat * 2 ^ 12 ||| d.toNat =
      b.toNat * 2 ^ 14 + p.toNat * 2 ^ 13 + e.toNat * 2 ^ 12 + d.toNat := by
    simp only [Nat.or_assoc, Nat.mul_comm _ (2 ^ _)]
    rw [← Nat.two_pow_add_eq_or_of_lt hd, ← Nat.two_pow_add_eq_or_of_lt (i := 13) (by omega),
      ← Nat.two_pow_add_eq_or_of_lt (by omega)]
    omega
  rw [sicAddress_eq]
  simp only [bitNat_eq_toNat]
  rw [hor, Nat.mod_eq_of_lt (by omega)]

/-- PC as the host supplies it or as its default (R15, R16). -/
theorem regPc_eq (s : State) : s.regPc = s.pcOvr.getD 0x003000#24 := rfl

/-- F3.SIMPLE.PC in two's complement (R83). -/
theorem pcRelative_eq (s : State) (d : Disp) : pcRelative s d = (s.regPc.toNat : Int) + d.toInt := by
  rw [pcRelative, signedDisp_eq_toInt]

/-- F3.SIMPLE.BASE in two's complement (R84). -/
theorem baseRelative_eq (s : State) (d : Disp) : baseRelative s d = (s.regB.toNat : Int) + d.toInt := by
  rw [baseRelative, signedDisp_eq_toInt]

/-- The pointer of F3.INDIRECT.PC in two's complement (R87). -/
theorem indirectPointer_eq (s : State) (d : Disp) : indirectPointer s d = (s.regPc.toNat : Int) + d.toInt :=
  pcRelative_eq s d

/-- F3.IMMEDIATE in two's complement (R89). -/
theorem immediateOperand_eq_ite (d : Disp) :
    immediateOperand d = if d.toInt ≥ 0 then d.toInt else (d.toNat : Int) := by
  rw [immediateOperand, signedDisp_eq_toInt]

/-- No mode formula reads the x bit: the index adder alone does (R92). -/
theorem taBaseOf_of_fields_eq_set_x {i j : Instr} {x : Bool} (s : State) (h : j.fields = { i.fields with x := x }) :
    taBaseOf j s = taBaseOf i s := by
  have hcase : j.decodeCase = i.decodeCase := by
    rw [← composedSelect_fields, ← composedSelect_fields, h]
    rfl
  rw [← composedFormula_fields, ← composedFormula_fields, hcase, h]
  cases i.decodeCase <;> rfl

/-- A word that differs from another by a set x bit leaves the record of the other's `ta_base` (R92). -/
theorem exec_decodeRaw_of_extract_eq_set_x {v w : RawWord} {x : Bool} (s : State)
    (h : extract v = { extract w with x := x }) :
    exec (decodeRaw v) s =
      .next (s.setOutput (some (.record (assemble { extract w with x := x } (taBaseOf (decodeRaw w) s) s)))) := by
  have hfields : (decodeRaw v).fields = { (decodeRaw w).fields with x := x } := by
    simp only [fields_decodeRaw, h]
  rw [exec_decodeRaw, taBaseOf_of_fields_eq_set_x s hfields, h]

/-- The target of a record is the index adder's sum (R92). -/
theorem assemble_target (f : FieldSet) (taBase : Option Int) (s : State) :
    (assemble f taBase s).target = taBase.map
      (· + if f.x = true ∧ (f.format = .f3 ∨ s.f4Index = true) then (s.regX.toNat : Int) else 0) :=
  indexTarget_eq_map ..

/-- Setting the x bit adds X to a format-3 target and makes none where there is none (R92). -/
theorem assemble_set_x_target {f : FieldSet} (taBase : Option Int) (s : State) (hf : f.format = .f3)
    (hx : f.x = false) :
    (assemble { f with x := true } taBase s).target =
      (assemble f taBase s).target.map (· + (s.regX.toNat : Int)) := by
  have hformat : FieldSet.format { f with x := true } = .f3 := hf
  simp [assemble_target, hformat, hx]

/-- In format 4 nothing is added while `F4_INDEX` is false (R90). -/
theorem assemble_f4_target {f : FieldSet} (taBase : Option Int) {s : State} (hf : f.format = .f4)
    (hf4 : s.f4Index = false) : (assemble f taBase s).target = taBase := by
  simp [assemble_target, hf, hf4]

/-- In format 3 a computed `ta_base` gives the target, X added when x = 1 (R92). -/
theorem assemble_f3_target {f : FieldSet} {taBase : Option Int} (s : State) {t : Int} (hf : f.format = .f3)
    (ht : taBase = some t) :
    (assemble f taBase s).target = some (t + if f.x then (s.regX.toNat : Int) else 0) := by
  simp [assemble_target, hf, ht]

/-- A format-3 record with a computed `ta_base`: its target, its status, and the value looked up there (R92, R97, R109). -/
theorem assemble_f3_of_some {f : FieldSet} {taBase : Option Int} {s : State} {t : Int} (hf : f.format = .f3)
    (ht : taBase = some t) :
    (assemble f taBase s).target = some (t + if f.x then (s.regX.toNat : Int) else 0) ∧
      (assemble f taBase s).status = .computed ∧
      (assemble f taBase s).value = (assemble f taBase s).target.bind (memRead s.memmap) := by
  have htarget := assemble_f3_target s hf ht
  exact ⟨htarget, assemble_status_of_target htarget, assemble_value f taBase s⟩

/-- A target bus of `TAW` bits holds every integer in the range of R93. -/
theorem toInt_ofInt_of_targetInRange {t : Int} (h : TargetInRange t) :
    (BitVec.ofInt Config.targetBusWidth t).toInt = t :=
  BitVec.toInt_ofInt_eq_self (by decide) (Int.le_trans (by decide) h.1) (Int.lt_of_le_of_lt h.2 (by decide))

/-- Without a `ta_base` there is neither a target nor a value, and the status says so (R86, R88, R109). -/
theorem assemble_none (f : FieldSet) (s : State) :
    (assemble f none s).target = none ∧ (assemble f none s).value = none ∧
      (assemble f none s).status = .ambiguousAddressingMode :=
  ⟨rfl, rfl, rfl⟩

end Sys2Proof.Machine
end

section
/-! PROOFS. The claims on the target address (42_target_address.md). -/

namespace Sys2Proof.Machine

/-- Settles O17: the formula of R82 packs the flags and the displacement as the word itself does. -/
theorem sicTargetIsTheLow15Bits : Obligations.SicTargetIsTheLow15Bits := by
  intro op x b p e d s
  have hbase := congrArg some (sicAddress_eq_sum b p e d)
  obtain ⟨htarget, hrest⟩ := assemble_f3_of_some (f := (Instr.f3Sic op x b p e d).fields) (s := s) rfl hbase
  exact ⟨_, exec_eq_finish _ s, rfl, htarget, (toNat_pack3_mod_two_pow_15 ..).symm, hrest⟩

/-- Settles O18: the displacement signed by R67 is its two's-complement reading, and the index adder adds to that sum. -/
theorem pcRelativeTargetAddsTheSignedDisplacement : Obligations.PcRelativeTargetAddsTheSignedDisplacement :=
  fun _ _ _ d s => ⟨_, exec_eq_finish _ s, assemble_f3_of_some rfl (congrArg some (pcRelative_eq s d))⟩

/-- Settles O19: as for PC, with B in its place. -/
theorem baseRelativeTargetAddsTheSignedDisplacement : Obligations.BaseRelativeTargetAddsTheSignedDisplacement :=
  fun _ _ _ d s => ⟨_, exec_eq_finish _ s, assemble_f3_of_some rfl (congrArg some (baseRelative_eq s d))⟩

/-- Settles O20: the formula of R85 is the unsigned displacement itself. -/
theorem directTargetIsTheUnsignedDisplacement : Obligations.DirectTargetIsTheUnsignedDisplacement :=
  fun _ _ _ _ s => ⟨_, exec_eq_finish _ s, assemble_f3_of_some rfl rfl⟩

/-- Settles O24: whichever arm of R89 is taken, it gives the unsigned displacement. -/
theorem immediateTargetIsTheRawDisplacement : Obligations.ImmediateTargetIsTheRawDisplacement := by
  intro op x b p e d s
  obtain ⟨htarget, hrest⟩ := assemble_f3_of_some (f := (Instr.f3Immediate op x b p e d).fields) (s := s) rfl
    (congrArg some (immediateOperand_eq_ite d))
  exact ⟨_, exec_eq_finish _ s, htarget, (immediateOperand_eq_ite d).symm.trans (immediateOperand_eq d), hrest⟩

/-- Settles O22: a pointer that is a key reads as its value and another as 0; neither is looked up again before the
index adder. -/
theorem indirectTargetIsTheValueAtThePointer : Obligations.IndirectTargetIsTheValueAtThePointer := by
  intro op x b e d s
  refine ⟨_, exec_eq_finish _ s, assemble_f3_of_some rfl (congrArg some ?_)⟩
  show indirectTarget s d = _
  rw [indirectTarget, indirectPointer_eq, regPc_eq]
  split
  · next h => rw [pointerRead_of_some h]
  · next h =>
    rw [pointerRead_of_none h]
    rfl

/-- Settles O21: without a `ta_base` the record still holds every field of the Field Set. -/
theorem simpleWithBothBitsHasNoTarget : Obligations.SimpleWithBothBitsHasNoTarget := by
  intro op x e d s
  obtain ⟨htarget, hvalue, hstatus⟩ := assemble_none (Instr.f3SimpleNorule op x e d).fields s
  refine ⟨_, exec_eq_finish _ s, htarget, hvalue, hstatus, rfl, rfl, rfl, rfl, signedDisp_eq_toInt d, rfl,
    ?nixbpe, ?label⟩
  case nixbpe => cases x <;> cases e <;> rfl
  case label => cases x <;> rfl

/-- Settles O23: as for F3.SIMPLE.NORULE, with b free. -/
theorem indirectWithoutPcBitHasNoTarget : Obligations.IndirectWithoutPcBitHasNoTarget := by
  intro op x b e d s
  obtain ⟨htarget, hvalue, hstatus⟩ := assemble_none (Instr.f3IndirectNorule op x b e d).fields s
  refine ⟨_, exec_eq_finish _ s, htarget, hvalue, hstatus, rfl, rfl, rfl, rfl, signedDisp_eq_toInt d, rfl,
    ?nixbpe, ?label⟩
  case nixbpe => cases x <;> cases b <;> cases e <;> rfl
  case label => cases x <;> cases b <;> rfl

/-- Settles O25: in format 4 the index adder adds X only when both x and `F4_INDEX` are set. -/
theorem format4TargetIsTheAddressField : Obligations.Format4TargetIsTheAddressField := by
  intro op n i x b p e a s
  have htarget := assemble_target (Instr.f4Addr op n i x b p e a).fields (some (extendedAddress a)) s
  refine ⟨_, exec_eq_finish _ s, assemble_f4_target _ rfl, fun hf4 => htarget.trans ?_,
    assemble_status_of_target htarget, assemble_value ..⟩
  simp only [hf4, or_true, and_true]
  rfl

/-- Settles O41: in either format a set index bit is a set x bit of the Field Set, which the index adder alone reads. -/
theorem indexBitAddsXToEveryFormat3Target : Obligations.IndexBitAddsXToEveryFormat3Target := by
  constructor
  · intro w s hx
    exact ⟨_, _, exec_decodeRaw (.f3 w) s, exec_decodeRaw_of_extract_eq_set_x s (extract_or_bit15 w),
      assemble_set_x_target _ s rfl hx⟩
  · intro w s hf4
    exact ⟨_, _, exec_decodeRaw (.f4 w) s, exec_decodeRaw_of_extract_eq_set_x s (extract_or_bit23 w),
      (assemble_f4_target _ rfl hf4).trans (assemble_f4_target _ rfl hf4).symm⟩

/-- Settles O42: every target lies in the range of R93, and F3.SIMPLE.PC reaches its ends, from PC = 0 with the least
displacement, and from the greatest PC, displacement and X. -/
theorem targetsFitIn27BitsTwosComplement : Obligations.TargetsFitIn27BitsTwosComplement := by
  refine ⟨fun i s => ⟨_, exec_eq_finish i s, fun t ht => ?_⟩, ?_, ?_⟩
  · have hrange : TargetInRange t := targetInRange_of_indexTarget ht
    exact ⟨hrange.1, hrange.2, toInt_ofInt_of_targetInRange hrange⟩
  · exact ⟨.f3SimplePc 0x00#8 false false 0x800#12, { State.reset with pcOvr := some 0x000000#24 }, _, rfl, by decide⟩
  · exact ⟨.f3SimplePc 0x00#8 true false 0x7FF#12,
      { State.reset with pcOvr := some 0xFFFFFF#24, xOvr := some 0xFFFFFF#24 }, _, rfl, by decide⟩

end Sys2Proof.Machine
end

section
/-! SUPPORT. The renderings digit by digit: a number is its hex digits, a hex rendering is their characters, a binary
rendering is their groups of four bits, each with a space after it that only the last one lacks (R101, R102). -/

namespace Sys2Proof

/-- Each of the digits written for a number is a hex digit. -/
theorem lt_of_mem_nibbles {k v n : Nat} (h : n ∈ nibbles k v) : n < 16 := by
  induction k with
  | zero => cases h
  | succ k ih =>
    obtain rfl | later := List.mem_cons.mp h
    · exact Nat.mod_lt _ (by decide)
    · exact ih later

/-- The digits written for a number give its value, cut to as many digits, at their base-16 places (R45). -/
theorem foldl_nibbles (k v acc : Nat) :
    (nibbles k v).foldl (fun acc n => 16 * acc + n) acc = acc * 16 ^ k + v % 16 ^ k := by
  induction k generalizing acc with
  | zero => simp [nibbles, Nat.mod_one]
  | succ k ih =>
    rw [nibbles, List.foldl_cons, ih, Nat.mod_pow_succ]
    ring

/-- The digits written for a number that fits read back as the number. -/
theorem foldl_nibbles_of_lt {k v : Nat} (h : v < 16 ^ k) :
    (nibbles k v).foldl (fun acc n => 16 * acc + n) 0 = v := by
  rw [foldl_nibbles, Nat.mod_eq_of_lt h, Nat.zero_mul, Nat.zero_add]

/-- The hex digit characters are the 16 in upper case (R102). -/
theorem hexChar_mem {n : Nat} (h : n < 16) : hexChar n ∈ "0123456789ABCDEF".toList := by
  interval_cases n <;> decide

/-- A hex digit character stands at the place of its value among the 16. -/
theorem idxOf_hexChar {n : Nat} (h : n < 16) : "0123456789ABCDEF".toList.idxOf (hexChar n) = n := by
  interval_cases n <;> rfl

/-- A hex rendering has the digits asked for (R102). -/
@[simp] theorem length_renderHex (k v : Nat) : (renderHex k v).length = k := by
  simp [renderHex]

/-- A hex rendering has upper-case hex digits only (R102). -/
theorem mem_renderHex {k v : Nat} {c : Char} (h : c ∈ (renderHex k v).toList) :
    c ∈ "0123456789ABCDEF".toList := by
  rw [renderHex, String.toList_ofList] at h
  obtain ⟨n, hn, rfl⟩ := List.mem_map.mp h
  exact hexChar_mem (lt_of_mem_nibbles hn)

/-- A hex rendering reads as the number rendered, when it fits (R102). -/
theorem foldl_renderHex {k v : Nat} (h : v < 16 ^ k) :
    (renderHex k v).toList.foldl (fun acc c => 16 * acc + "0123456789ABCDEF".toList.idxOf c) 0 = v := by
  rw [renderHex, String.toList_ofList (l := (nibbles k v).map hexChar), List.foldl_map]
  refine (List.foldl_ext _ _ _ fun acc n hn => ?_).trans (foldl_nibbles_of_lt h)
  rw [idxOf_hexChar (lt_of_mem_nibbles hn)]

/-- An instruction has four bits for each of its hex digits (R41). -/
theorem Format.width_eq_four_mul_digits (fmt : Format) : fmt.width = 4 * fmt.digits := by
  cases fmt <;> rfl

/-- A word's number has no more hex digits than its format (R41). -/
theorem RawWord.toNat_lt_sixteen_pow (w : RawWord) : w.toNat < 16 ^ w.format.digits := by
  rw [Format.sixteen_pow_digits]
  exact w.toNat_lt

/-- Each format has digits (R41). -/
theorem Format.digits_pos (fmt : Format) : 0 < fmt.digits := by
  cases fmt <;> decide

end Sys2Proof

namespace Sys2Proof.Machine

/-- The separator put between lists and after the last one closes each of them. -/
theorem intercalate_append_sep {α : Type} (sep : List α) {ls : List (List α)} (h : ls ≠ []) :
    sep.intercalate ls ++ sep = ls.flatMap (· ++ sep) := by
  induction ls with
  | nil => exact absurd rfl h
  | cons l ls ih =>
    by_cases last : ls = []
    · simp [last]
    · rw [List.intercalate_cons_of_ne_nil last, List.append_assoc, ih last, List.flatMap_cons]

/-- A hex digit in binary is the characters of its four bits (R101). -/
theorem toList_renderNibble (n : Nat) :
    (renderNibble n).toList =
      [bitChar (n.testBit 3), bitChar (n.testBit 2), bitChar (n.testBit 1), bitChar (n.testBit 0)] :=
  String.toList_ofList

/-- Each character of a hex digit in binary is the character of a bit (R101). -/
theorem exists_bitChar_of_mem_renderNibble {n : Nat} {c : Char} (h : c ∈ (renderNibble n).toList) :
    ∃ b, c = bitChar b := by
  simp only [toList_renderNibble, List.mem_cons, List.not_mem_nil, or_false] at h
  obtain h | h | h | h := h
  all_goals exact ⟨_, h⟩

/-- A bit's character is one of the two binary digits (R47). -/
theorem bitChar_eq_zero_or_one (b : Bool) : bitChar b = '0' ∨ bitChar b = '1' := by
  cases b <;> decide

/-- A bit's character is not the separator. -/
theorem bitChar_ne_space (b : Bool) : bitChar b ≠ ' ' := by
  cases b <;> decide

/-- A bit's character read as a number is the bit (R47). -/
theorem ite_bitChar_eq_one (b : Bool) : (if bitChar b = '1' then 1 else 0) = b.toNat := by
  cases b <;> rfl

/-- The four bits of a hex digit read back as the digit. -/
theorem foldl_renderNibble (acc : Nat) {n : Nat} (h : n < 16) :
    (renderNibble n).toList.foldl (fun acc c => 2 * acc + if c = '1' then 1 else 0) acc = 16 * acc + n := by
  simp only [toList_renderNibble, List.foldl_cons, List.foldl_nil, ite_bitChar_eq_one, Nat.toNat_testBit]
  omega

/-- The four binary digits of a hex digit and the space that closes their group (R101). -/
def bitGroup (n : Nat) : List Char := (renderNibble n).toList ++ [' ']

/-- A group takes five characters. -/
@[simp] theorem length_bitGroup (n : Nat) : (bitGroup n).length = 5 := by
  simp [bitGroup, toList_renderNibble]

/-- Without its space a group is the four binary digits. -/
theorem filter_bitGroup (n : Nat) : (bitGroup n).filter (· ≠ ' ') = (renderNibble n).toList := by
  have keep : (renderNibble n).toList.filter (· ≠ ' ') = (renderNibble n).toList :=
    List.filter_eq_self.mpr fun c hc => by
      obtain ⟨b, rfl⟩ := exists_bitChar_of_mem_renderNibble hc
      exact decide_eq_true (bitChar_ne_space b)
  rw [bitGroup, List.filter_append, keep]
  exact List.append_nil _

/-- In a group only the fifth character is a space. -/
theorem bitGroup_getElem?_eq_space_iff {n j : Nat} (h : j < 5) : (bitGroup n)[j]? = some ' ' ↔ j = 4 := by
  rw [bitGroup, toList_renderNibble]
  interval_cases j <;> simp [bitChar_ne_space]

/-- In groups put one after another the spaces stand at every fifth place. -/
theorem flatMap_bitGroup_getElem?_eq_space_iff {ns : List Nat} {j : Nat} (h : j < 5 * ns.length) :
    (ns.flatMap bitGroup)[j]? = some ' ' ↔ j % 5 = 4 := by
  induction ns generalizing j with
  | nil => cases h
  | cons n ns ih =>
    rw [List.flatMap_cons]
    by_cases first : j < 5
    · rw [List.getElem?_append_left (by rwa [length_bitGroup]), Nat.mod_eq_of_lt first]
      exact bitGroup_getElem?_eq_space_iff first
    · have later : 5 ≤ j := Nat.le_of_not_lt first
      rw [List.getElem?_append_right (by rwa [length_bitGroup]), length_bitGroup, Nat.mod_eq_sub_mod later]
      rw [List.length_cons] at h
      exact ih (by omega)

/-- With one more space at its end a binary rendering is the groups of its hex digits (R101). -/
theorem toList_renderBin_append_space {k : Nat} (hk : 0 < k) (v : Nat) :
    (renderBin k v).toList ++ [' '] = (nibbles k v).flatMap bitGroup := by
  have some_digit : ((nibbles k v).map renderNibble).map String.toList ≠ [] := by
    simp [← List.length_eq_zero_iff, hk.ne']
  rw [renderBin, String.toList_intercalate]
  refine (intercalate_append_sep [' '] some_digit).trans ?_
  rw [List.map_map, List.flatMap_map]
  rfl

section
variable {k : Nat} (hk : 0 < k)
include hk

/-- A binary rendering of `k` groups has a space between groups and none at the ends (R101). -/
theorem length_renderBin (v : Nat) : (renderBin k v).length = 5 * k - 1 := by
  have closed : (renderBin k v).length + 1 = k * 5 := by
    rw [← String.length_toList]
    simpa using congrArg List.length (toList_renderBin_append_space hk v)
  omega

/-- A binary rendering has binary digits and spaces only (R101). -/
theorem mem_renderBin {v : Nat} {c : Char} (h : c ∈ (renderBin k v).toList) : c = '0' ∨ c = '1' ∨ c = ' ' := by
  have closed : c ∈ (nibbles k v).flatMap bitGroup := by
    rw [← toList_renderBin_append_space hk v]
    exact List.mem_append_left _ h
  obtain ⟨n, -, hc⟩ := List.mem_flatMap.mp closed
  obtain digit | space := List.mem_append.mp hc
  · obtain ⟨b, rfl⟩ := exists_bitChar_of_mem_renderNibble digit
    exact (bitChar_eq_zero_or_one b).imp_right .inl
  · exact .inr (.inr (List.mem_singleton.mp space))

/-- In a binary rendering a space stands exactly after each four digits (R101). -/
theorem renderBin_getElem?_eq_space_iff {v j : Nat} (h : j < (renderBin k v).length) :
    (renderBin k v).toList[j]? = some ' ' ↔ j % 5 = 4 := by
  rw [← List.getElem?_append_left (l₂ := [' ']) h, toList_renderBin_append_space hk]
  refine flatMap_bitGroup_getElem?_eq_space_iff ?_
  rw [length_renderBin hk] at h
  rw [length_nibbles]
  omega

/-- The digits of a binary rendering, without its spaces, are those of its hex digits. -/
theorem filter_renderBin (v : Nat) :
    (renderBin k v).toList.filter (· ≠ ' ') = (nibbles k v).flatMap fun n => (renderNibble n).toList := by
  simp only [← filter_bitGroup, ← List.filter_flatMap, ← toList_renderBin_append_space hk, List.filter_append]
  exact (List.append_nil _).symm

/-- A binary rendering of `k` groups has `4 * k` digits (R101). -/
theorem length_filter_renderBin (v : Nat) : ((renderBin k v).toList.filter (· ≠ ' ')).length = 4 * k := by
  rw [filter_renderBin hk, List.length_flatMap]
  simp [toList_renderNibble, Nat.mul_comm]

/-- The digits of a binary rendering read as the number rendered, when it fits (R101). -/
theorem foldl_filter_renderBin {v : Nat} (h : v < 16 ^ k) :
    ((renderBin k v).toList.filter (· ≠ ' ')).foldl (fun acc c => 2 * acc + if c = '1' then 1 else 0) 0 = v := by
  rw [filter_renderBin hk, List.foldl_flatMap]
  exact (List.foldl_ext _ _ _ fun acc n hn => foldl_renderNibble acc (lt_of_mem_nibbles hn)).trans
    (foldl_nibbles_of_lt h)

end

/-- Each field has digits (R102). -/
theorem dispDigits_pos (f : DispField) : 0 < dispDigits f := by
  cases f <;> exact Nat.succ_pos _

/-- A field's number has no more hex digits than the field (R102). -/
theorem dispNat_lt (f : DispField) : dispNat f < 16 ^ dispDigits f := by
  cases f with
  | disp d => exact d.isLt
  | addr a => exact a.isLt

/-- The field of a record in binary and in hex: how many digits it has, and that either rendering reads as the field
(R102). -/
theorem dispBin_dispHex_read (r : Record) :
    (r.dispBin.toList.filter (· ≠ ' ')).length = 4 * dispDigits r.dispRaw ∧
      r.dispBin.length = 5 * dispDigits r.dispRaw - 1 ∧
      (r.dispBin.toList.filter (· ≠ ' ')).foldl (fun acc c => 2 * acc + if c = '1' then 1 else 0) 0 =
        dispNat r.dispRaw ∧
      r.dispHex.length = dispDigits r.dispRaw ∧
      r.dispHex.toList.foldl (fun acc c => 16 * acc + "0123456789ABCDEF".toList.idxOf c) 0 = dispNat r.dispRaw :=
  have hk := dispDigits_pos r.dispRaw
  have hv := dispNat_lt r.dispRaw
  ⟨length_filter_renderBin hk _, length_renderBin hk _, foldl_filter_renderBin hk hv, length_renderHex _ _,
    foldl_renderHex hv⟩

/-- A raw instruction in hex has as many digits as its format (R41, R102). -/
theorem length_rawHex (r : Record) : r.rawHex.length = r.raw.format.digits :=
  length_renderHex _ _

/-- The format of a record is that of its own word (R62). -/
theorem assemble_format_eq_raw_format (f : FieldSet) (taBase : Option Int) (s : State) :
    (assemble f taBase s).format = (assemble f taBase s).raw.format :=
  (word_format f).symm

/-- The record's `raw_bin` renders its own word (R101). -/
theorem assemble_rawBin (f : FieldSet) (taBase : Option Int) (s : State) :
    (assemble f taBase s).rawBin =
      renderBin (assemble f taBase s).raw.format.digits (assemble f taBase s).raw.toNat := rfl

/-- `AmbiguousAddressingMode` exactly without a target (R109). -/
theorem statusOf_eq_ambiguous_iff (target : Option Int) :
    statusOf target = .ambiguousAddressingMode ↔ target = none := by
  cases target <;> simp [statusOf]

end Sys2Proof.Machine
end

section
/-! PROOFS. The claims on the lookup and the output (43_lookup_output.md). -/

namespace Sys2Proof.Machine

/-- Settles O51: an error of the parser is the composition's, and for a word that parses its record is the block's. -/
theorem stepComputesTheComposedDecode : Obligations.StepComputesTheComposedDecode :=
  fun _ _ => step_eq_composedDecode

/-- Settles O37: the value is the memory read at the record's own target, and a canonical map has one entry a key. -/
theorem valueIsTheEntryAtTheFinalTarget : Obligations.ValueIsTheEntryAtTheFinalTarget := by
  intro i s hwf
  have hvalue := assemble_value i.fields (taBaseOf i s) s
  refine ⟨assemble i.fields (taBaseOf i s) s, exec_eq_finish i s, fun t v ht hmem => ?_, fun t ht habsent => ?_,
    fun hnone => ?_, statusOf_eq_computed_iff _, statusOf_eq_ambiguous_iff _⟩
  · rw [hvalue, ht]
    exact (memRead_eq_some_iff hwf).mpr hmem
  · rw [hvalue, ht]
    exact memRead_eq_none_iff.mpr habsent
  · rw [hvalue, hnone]
    rfl

/-- Settles O33: `raw_bin` renders the record's own word in as many groups of four as its format has hex digits. -/
theorem binaryRenderingHasExactWidth : Obligations.BinaryRenderingHasExactWidth := by
  intro i s
  refine ⟨assemble i.fields (taBaseOf i s) s, exec_eq_finish i s, ?_⟩
  rw [assemble_rawBin, assemble_format_eq_raw_format, Format.width_eq_four_mul_digits]
  have hk := (assemble i.fields (taBaseOf i s) s).raw.format.digits_pos
  refine ⟨length_filter_renderBin hk _, foldl_filter_renderBin hk (RawWord.toNat_lt_sixteen_pow _),
    fun c => mem_renderBin hk, ?_, fun k => renderBin_getElem?_eq_space_iff hk⟩
  rw [length_renderBin hk]
  omega

/-- Settles O34: a field is rendered in as many groups of four bits and as many hex digits as make up its width, and
the hex string of a word is what the parser reads. -/
theorem fieldRenderingsReadBack : Obligations.FieldRenderingsReadBack := by
  intro r
  have hk : 0 < dispDigits r.dispRaw := dispDigits_pos _
  have hfield := dispBin_dispHex_read r
  refine ⟨fun d hd => ?_, fun a ha => ?_, fun c => mem_renderBin hk, fun k => renderBin_getElem?_eq_space_iff hk,
    fun c => mem_renderHex, fun c => mem_renderHex, fun w hw => ?_, fun w hw => ?_, parse_hex r.raw⟩
  · rwa [hd] at hfield
  · rwa [ha] at hfield
  · rw [length_rawHex, hw]
    rfl
  · rw [length_rawHex, hw]
    rfl

/-- Settles O1: the step does nothing but decode the string and execute the instruction. -/
theorem stepRunsDecodedInstruction : Obligations.StepRunsDecodedInstruction :=
  fun _ _ _ => step_of_decodeHex_ok

/-- Settles O35, by whether there is a value. -/
theorem reportLinesStandInTheFixedOrder : Obligations.ReportLinesStandInTheFixedOrder := by
  intro r
  constructor
  · intro v hv
    simp [Record.report, hv]
  · intro hv
    simp [Record.report, hv]

end Sys2Proof.Machine
end

section
/-! SUPPORT. The words of a decode case by its row of R54, which records have no target (R109), and the code of a record's
ending (R106). -/

namespace Sys2Proof

/-- The words of a case are those of its row: of its format, and equal to its match under its mask (R54). -/
theorem decodeCase_decodeRaw_eq_iff {c : DecodeCase} {fmt : Format} {mask m : Nat}
    (hrow : ⟨c, fmt, mask, m⟩ ∈ caseTable) (w : RawWord) :
    (decodeRaw w).decodeCase = c ↔ w.format = fmt ∧ w.toNat &&& mask = m := by
  rw [eq_comm, ← matches_iff hrow, CaseRow.matches, Bool.and_eq_true, beq_iff_eq, beq_iff_eq, eq_comm (a := fmt)]

end Sys2Proof

namespace Sys2Proof.Machine

/-- A record is `AmbiguousAddressingMode` exactly without a target (R109). -/
theorem assemble_status_eq_ambiguous_iff (f : FieldSet) (taBase : Option Int) (s : State) :
    (assemble f taBase s).status = .ambiguousAddressingMode ↔ (assemble f taBase s).target = none :=
  statusOf_eq_ambiguous_iff _

/-- A record has no target exactly when its mode formula gives no `ta_base`: the index adder changes nothing in that
(R81, R92). -/
theorem assemble_target_eq_none_iff {f : FieldSet} {taBase : Option Int} {s : State} :
    (assemble f taBase s).target = none ↔ taBase = none :=
  indexTarget_eq_none_iff

/-- A word has no `ta_base` exactly in the rows of F3.SIMPLE.NORULE and F3.INDIRECT.NORULE, whatever the state (R86, R88,
R109). -/
theorem taBaseOf_decodeRaw_eq_none_iff (w : RawWord) (s : State) :
    taBaseOf (decodeRaw w) s = none ↔
      w.format = .f3 ∧ (w.toNat &&& 0x036000 = 0x036000 ∨ w.toNat &&& 0x032000 = 0x020000) := by
  have simple : ⟨.f3SimpleNorule, .f3, 0x036000, 0x036000⟩ ∈ caseTable := by decide
  have indirect : ⟨.f3IndirectNorule, .f3, 0x032000, 0x020000⟩ ∈ caseTable := by decide
  rw [taBaseOf_eq_none_iff, decodeCase_decodeRaw_eq_iff simple, decodeCase_decodeRaw_eq_iff indirect, ← and_or_left]

/-- The code of an ending (R106; the codes are the spec's decision D10). -/
def Ending.code : Ending → BitVec 2
  | .computed => 0#2
  | .unsupportedLength => 1#2
  | .invalidHexInput => 2#2
  | .ambiguousAddressingMode => 3#2

/-- A record's code, read from its status, is that of its ending, told by its target (R20, R106). -/
theorem err_assemble (f : FieldSet) (taBase : Option Int) (s : State) :
    (Result.record (assemble f taBase s)).err = (Result.record (assemble f taBase s)).ending.code := by
  cases htarget : (assemble f taBase s).target with
  | none =>
    have hstatus := (assemble_status_eq_ambiguous_iff f taBase s).mpr htarget
    simp [Result.err, Result.ending, hstatus, htarget, Ending.code]
  | some t =>
    have hstatus := assemble_status_of_target htarget
    simp [Result.err, Result.ending, hstatus, htarget, Ending.code]

/-- A parser error's code is that of its ending (R106). -/
theorem err_error (err : ParseError) : (Result.error err).err = (Result.error err).ending.code := by
  cases err <;> rfl

end Sys2Proof.Machine
end

section
/-! PROOFS. The claims on the endings of a decode (60_exceptions.md). -/

namespace Sys2Proof.Machine

/-- Settles O40: the index adder neither makes nor takes away a target, and the two cases without a formula are the two
rows. -/
theorem ambiguousExactlyForTheTwoPatterns : Obligations.AmbiguousExactlyForTheTwoPatterns := by
  intro w s
  have hstatus := assemble_status_eq_ambiguous_iff (extract w) (taBaseOf (decodeRaw w) s) s
  refine ⟨_, exec_decodeRaw w s, ?_, hstatus, fun hambiguous => ?_⟩
  · rw [hstatus, assemble_target_eq_none_iff, taBaseOf_decodeRaw_eq_none_iff]
  · rw [assemble_value, hstatus.mp hambiguous]
    rfl

/-- Settles O49: an idle step sets the output to nothing, and every request has the composition's result. -/
theorem everyDecodeEndsInAResult : Obligations.EveryDecodeEndsInAResult := by
  intro s
  cases h : s.hex with
  | none => exact ⟨_, step_of_hex_none h, by simp⟩
  | some hex => exact ⟨_, step_eq_composedDecode h, by simp⟩

/-- Settles O50: a step's result is an error of the parser or an assembled record, and either's code is that of its
ending. -/
theorem errorCodeNamesTheEnding : Obligations.ErrorCodeNamesTheEnding := by
  intro s t res h hres
  change res.err = res.ending.code
  obtain ⟨-, rfl⟩ | ⟨_, err, -, -, rfl⟩ | ⟨_, i, -, -, rfl⟩ := step_next h
  · cases hres
  · obtain rfl := Option.some.inj hres
    exact err_error err
  · obtain rfl := Option.some.inj hres
    exact err_assemble ..

end Sys2Proof.Machine
end

section
/-! SUPPORT. An empty table has no key, so that whatever is looked up in it is absent (R122). -/

namespace Sys2Proof.Machine

/-- No key is in an empty table. -/
theorem ne_key_of_eq_nil {κ ν : Type} {t : List (κ × ν)} (h : t = []) (k : κ) : ∀ q ∈ t, q.1 ≠ k := by
  rw [h]
  exact List.forall_mem_nil _

/-- A record whose target, if it has one, is no key of the memory map has no value (R98). -/
theorem assemble_value_of_absent {f : FieldSet} {taBase : Option Int} {s : State}
    (h : ∀ t, (assemble f taBase s).target = some t → ∀ q ∈ s.memmap, q.1 ≠ t) :
    (assemble f taBase s).value = none := by
  rw [assemble_value, Option.bind_eq_none_iff]
  exact fun t ht => memRead_eq_none_iff.mpr (h t ht)

end Sys2Proof.Machine
end

section
/-! PROOFS. The claims on reset and on empty tables (70_reset_and_hazards.md R120, R122). -/

namespace Sys2Proof.Machine

/-- Settles O39: opcode byte, target and pointer are all absent keys of the empty tables, and what an absent key reads as
is known for each lookup. -/
theorem emptyTablesAreNoError : Obligations.EmptyTablesAreNoError := by
  intro i s hoptab hmemmap
  have noAddress := ne_key_of_eq_nil hmemmap
  refine ⟨_, exec_eq_finish i s, resolve_of_absent (ne_key_of_eq_nil hoptab _),
    assemble_value_of_absent fun t _ => noAddress t, fun hcase => ?_⟩
  cases i with
  | f3IndirectPc op x b e d => exact target_f3IndirectPc_of_absent op x b e (noAddress _)
  | _ => cases hcase

/-- Settles O54: the empty tables are canonical, and an output port without a value has nothing to hang together. -/
theorem resetStateIsConsistent : Obligations.ResetStateIsConsistent :=
  ⟨reset_memmap_wf, reset_optab_wf, True.intro⟩

end Sys2Proof.Machine
end
